-- ==== Sys2Proof/Word.lean ====
section
/-! DEFINITION. The word types of `rsa_core`: bus words, byte addresses and register indices. -/

namespace Sys2Proof

/-- A 32-bit bus word or command word (R81, R120). -/
abbrev Word := BitVec 32

/-- A byte address of the host register space, 16 bits wide (R80). -/
abbrev Addr := BitVec 16

/-- The index of an operand register `r0`..`r15` (R30, R123). -/
abbrev Reg := Fin 16

end Sys2Proof
end

