-- ==== Sys2Proof/Config.lean ====
section
/-! DEFINITION. The implementation parameters of `rsa_core` (00_scope.md R9, R10). The spec leaves no value of the
block free, so there is no free value here: random words are inputs of the machine (R100), and the operand width
is carried by the state, so that every claim about every state is a claim about every width. -/

namespace Sys2Proof

/-- The operand width `W`: a power of two with `64 ≤ W ≤ 16384` (R9). -/
inductive Width where
  | w64 | w128 | w256 | w512 | w1024 | w2048 | w4096 | w8192 | w16384
  deriving DecidableEq, Repr

/-- `W` in bits (R9). -/
def Width.bits : Width → Nat
  | .w64 => 64
  | .w128 => 128
  | .w256 => 256
  | .w512 => 512
  | .w1024 => 1024
  | .w2048 => 2048
  | .w4096 => 4096
  | .w8192 => 8192
  | .w16384 => 16384

/-- `WORDS = W / 32`, the 32-bit words of one operand (R9). -/
def Width.words (w : Width) : Nat := w.bits / 32

/-- `W / 8`, the bytes one operand takes in the operand window (R84). -/
def Width.bytes (w : Width) : Nat := w.bits / 8

/-- `2^W`, the bound of every operand and result (R9, R13). -/
def Width.bound (w : Width) : Nat := 2 ^ w.bits

/-- The width of the instance that `State.reset` describes. DESIGN CHOICE (log 1): the spec leaves `W` open; the
vectors of 95_test_vectors.md use 64. -/
def Config.resetWidth : Width := .w64

/-- `NREG` (R10). -/
def Config.nreg : Nat := 16

/-- `K_MAX`, the largest count of moduli of a CRT (R10). -/
def Config.kMax : Nat := 8

/-- `MR_ROUNDS_MAX`, the largest round count of MRTEST (R10). -/
def Config.mrRoundsMax : Nat := 1023

/-- `MR_DEFAULT_ROUNDS`, the round count of `ISPRIME` (R10, R140). -/
def Config.mrDefaultRounds : Nat := 40

/-- `CORE_ID`, the value of the ID register (R10, R33). -/
def Config.coreId : Word := 0x52534331#32

end Sys2Proof
end

