-- ==== Sys2Proof/Syntax.lean ====
section
/-! DEFINITION. The commands of RSACORE-CMD v1 as syntax: one constructor per row of the opcode table (30_encoding.md R126),
and the pseudo-instructions (R140). -/

namespace Sys2Proof

/-- A command. Register operands are indices (R123); counts are plain numbers whose field widths `WellFormed` checks (R124). -/
inductive Instr where
  /-- `MODMUL rd, ra, rb, rm` (R181) -/
  | modmul (rd ra rb rm : Reg)
  /-- `MODPOW rd, rn, re, rm` (R191) -/
  | modpow (rd rn re rm : Reg)
  /-- `GCD rd, ra, rb` (R201) -/
  | gcd (rd ra rb : Reg)
  /-- `BGCD rd, ra, rb` (R203) -/
  | bgcd (rd ra rb : Reg)
  /-- `XGCD rd, ra, rb` (R205) -/
  | xgcd (rd ra rb : Reg)
  /-- `MODINV rd, rn, rm` (R221) -/
  | modinv (rd rn rm : Reg)
  /-- `CRT rd, rx, rm, #k` (R231) -/
  | crt (rd rx rm : Reg) (k : Nat)
  /-- `MRTEST rd, rn, #rounds`: random witnesses, WSRC = 0 (R241) -/
  | mrtestRandom (rd rn : Reg) (rounds : Nat)
  /-- `MRTEST rd, rn, rw, #rounds`: witness registers, WSRC = 1 (R241) -/
  | mrtestRegs (rd rn rw : Reg) (rounds : Nat)
  /-- `BITLEN rd, rn` (R261) -/
  | bitlen (rd rn : Reg)
  /-- `LSB rd, rn` (R263) -/
  | lsb (rd rn : Reg)
  deriving DecidableEq, Repr

/-- `SQRMOD rd, rs, rm`: the pseudo-instruction for a modular squaring (R140). -/
def Instr.sqrmod (rd rs rm : Reg) : Instr := .modmul rd rs rs rm

/-- `CRT2 rd, rx, rm`: the pseudo-instruction for the two-prime reconstruction (R140). -/
def Instr.crt2 (rd rx rm : Reg) : Instr := .crt rd rx rm 2

/-- `ISPRIME rd, rn`: the pseudo-instruction for 40 random rounds (R140, R251). -/
def Instr.isprime (rd rn : Reg) : Instr := .mrtestRandom rd rn Config.mrDefaultRounds

end Sys2Proof
end

