-- ==== Sys2Proof/WellFormed.lean ====
section
/-! DEFINITION. Which command terms fit the command word: a count must fit its IMM sub-field (30_encoding.md R124).
Whether a count or a register range is ADMITTED is another question, which the command itself answers with an
error (40_command_cycle.md R156): `CRT` with `K = 0` is a well-formed command that completes with COUNT. -/

namespace Sys2Proof

/-- Every count of the command fits its field: `K` in `IMM[3:0]`, `ROUNDS` in `IMM[9:0]` (R124). -/
def Instr.wellFormed : Instr → Bool
  | .modmul _ _ _ _ => true
  | .modpow _ _ _ _ => true
  | .gcd _ _ _ => true
  | .bgcd _ _ _ => true
  | .xgcd _ _ _ => true
  | .modinv _ _ _ => true
  | .crt _ _ _ k => decide (k < 16)
  | .mrtestRandom _ _ rounds => decide (rounds < 1024)
  | .mrtestRegs _ _ _ rounds => decide (rounds < 1024)
  | .bitlen _ _ => true
  | .lsb _ _ => true

end Sys2Proof
end

