-- ==== Sys2Proof/Decode.lean ====
section
/-! DEFINITION. Decoding and encoding of command words (30_encoding.md R120 to R128). Decoding is total on all 2^32 words
and rejects by name; the encoder is written from the same table of match and mask values (R126). -/

namespace Sys2Proof

/-- OPC = `cmd[31:27]` (R122). -/
def fieldOpc (w : Word) : BitVec 5 := w.extractLsb' 27 5

/-- RD = `cmd[26:23]` (R122). -/
def fieldRd (w : Word) : Reg := (w.extractLsb' 23 4).toFin

/-- RS1 = `cmd[22:19]` (R122). -/
def fieldRs1 (w : Word) : Reg := (w.extractLsb' 19 4).toFin

/-- RS2 = `cmd[18:15]` (R122). -/
def fieldRs2 (w : Word) : Reg := (w.extractLsb' 15 4).toFin

/-- RS3 = `cmd[14:11]` (R122). -/
def fieldRs3 (w : Word) : Reg := (w.extractLsb' 11 4).toFin

/-- `K = IMM[3:0]` of a CRT word (R124). -/
def fieldK (w : Word) : Nat := (w.extractLsb' 0 4).toNat

/-- `ROUNDS = IMM[9:0]` of an MRTEST word (R124). -/
def fieldRounds (w : Word) : Nat := (w.extractLsb' 0 10).toNat

/-- One row of the encoding table (R126): a word selects the row when `(cmd AND mask) = match`. -/
structure EncodingRow where
  /-- the row's match value -/
  pattern : Word
  /-- the row's mask -/
  mask : Word
  /-- the command the row's fields spell -/
  build : Word → Instr

/-- `(cmd AND row.mask) = row.match` (R126). -/
def EncodingRow.selects (r : EncodingRow) (w : Word) : Bool := w &&& r.mask == r.pattern

/-- The encoding table, in the order of R126. -/
def encodingRows : List EncodingRow :=
  [ ⟨0x08000000#32, 0xF80007FF#32, fun w => .modmul (fieldRd w) (fieldRs1 w) (fieldRs2 w) (fieldRs3 w)⟩,
    ⟨0x10000000#32, 0xF80007FF#32, fun w => .modpow (fieldRd w) (fieldRs1 w) (fieldRs2 w) (fieldRs3 w)⟩,
    ⟨0x18000000#32, 0xF8007FFF#32, fun w => .gcd (fieldRd w) (fieldRs1 w) (fieldRs2 w)⟩,
    ⟨0x20000000#32, 0xF8007FFF#32, fun w => .bgcd (fieldRd w) (fieldRs1 w) (fieldRs2 w)⟩,
    ⟨0x28000000#32, 0xF8007FFF#32, fun w => .xgcd (fieldRd w) (fieldRs1 w) (fieldRs2 w)⟩,
    ⟨0x30000000#32, 0xF8007FFF#32, fun w => .modinv (fieldRd w) (fieldRs1 w) (fieldRs2 w)⟩,
    ⟨0x38000000#32, 0xF8007FF0#32, fun w => .crt (fieldRd w) (fieldRs1 w) (fieldRs2 w) (fieldK w)⟩,
    ⟨0x40000000#32, 0xF807FC00#32, fun w => .mrtestRandom (fieldRd w) (fieldRs1 w) (fieldRounds w)⟩,
    ⟨0x40000400#32, 0xF8007C00#32, fun w => .mrtestRegs (fieldRd w) (fieldRs1 w) (fieldRs2 w) (fieldRounds w)⟩,
    ⟨0x48000000#32, 0xF807FFFF#32, fun w => .bitlen (fieldRd w) (fieldRs1 w)⟩,
    ⟨0x50000000#32, 0xF807FFFF#32, fun w => .lsb (fieldRd w) (fieldRs1 w)⟩ ]

/-- Why a word is ILLEGAL (R127). -/
inductive IllegalWord where
  /-- OPC is `0x00` or `0x0B`..`0x1F` (R128) -/
  | reservedOpcode
  /-- a field that must be 0 is not (R127) -/
  | reservedField
  deriving DecidableEq, Repr

/-- What a command word decodes to (R127). -/
inductive Decoded where
  | command (i : Instr)
  | illegal (why : IllegalWord)
  deriving DecidableEq, Repr

/-- The reserved opcodes `0x00` and `0x0B`..`0x1F` (R128). -/
def reservedOpcode (opc : BitVec 5) : Bool := opc == 0 || 0x0B ≤ opc.toNat

/-- Decode by the given rows, in order (R127). -/
def decodeBy : List EncodingRow → Word → Decoded
  | [], w => if reservedOpcode (fieldOpc w) then .illegal .reservedOpcode else .illegal .reservedField
  | r :: rest, w => if r.selects w then .command (r.build w) else decodeBy rest w

/-- The decoder of R127, total on all 2^32 words. -/
def decode (w : Word) : Decoded := decodeBy encodingRows w

/-- The command word of a list of fields: `OPC<<27 | RD<<23 | RS1<<19 | RS2<<15 | RS3<<11 | IMM` (R121). -/
def commandWord (opc : Nat) (rd rs1 rs2 rs3 : Reg) (imm : Nat) : Word :=
  BitVec.ofNat 32 opc <<< 27 ||| BitVec.ofNat 32 rd.val <<< 23 ||| BitVec.ofNat 32 rs1.val <<< 19
    ||| BitVec.ofNat 32 rs2.val <<< 15 ||| BitVec.ofNat 32 rs3.val <<< 11 ||| BitVec.ofNat 32 imm

/-- WSRC = `IMM[10]` set: the witnesses come from registers (R124, R131). -/
def wsrcBit : Nat := 0x400

/-- The word of a command: the formula of R121 applied to the fields of R131, every field left out being 0. -/
def encode : Instr → Word
  | .modmul rd ra rb rm => commandWord 0x01 rd ra rb rm 0
  | .modpow rd rn re rm => commandWord 0x02 rd rn re rm 0
  | .gcd rd ra rb => commandWord 0x03 rd ra rb 0 0
  | .bgcd rd ra rb => commandWord 0x04 rd ra rb 0 0
  | .xgcd rd ra rb => commandWord 0x05 rd ra rb 0 0
  | .modinv rd rn rm => commandWord 0x06 rd rn rm 0 0
  | .crt rd rx rm k => commandWord 0x07 rd rx rm 0 k
  | .mrtestRandom rd rn rounds => commandWord 0x08 rd rn 0 0 rounds
  | .mrtestRegs rd rn rw rounds => commandWord 0x08 rd rn rw 0 (wsrcBit ||| rounds)
  | .bitlen rd rn => commandWord 0x09 rd rn 0 0 0
  | .lsb rd rn => commandWord 0x0A rd rn 0 0 0

/-- The command word whose bits are `w` as the opcode table numbers them, the bits from `nbits` up being 0. A command
is one 32-bit word (R120), so there are no further words. -/
def tableWord (nbits w : Nat) : Word := BitVec.ofNat 32 (w % 2 ^ nbits)

/-- What the decoder reads from an opcode-table word. -/
def decodeTableWord (nbits w : Nat) : Option Instr :=
  match decode (tableWord nbits w) with
  | .command i => some i
  | .illegal _ => none

end Sys2Proof
end

