-- ==== Sys2Proof/Machine/State.lean ====
section
/-! DEFINITION. The state of `rsa_core` as plain data (10_state.md), the reasons a step can stop, and reset (R43). -/

namespace Sys2Proof.Machine

/-- The operand bank `r0`..`r15` (R30): unsigned integers, which the invariant keeps in `[0, 2^W)` (DESIGN CHOICE, log 9). -/
abbrev Bank := Vector Nat 16

/-- The values ERRCODE takes (R270). -/
inductive ErrCode where
  | none | illegal | invalidInput | noInverse
  deriving DecidableEq, Repr

/-- The values ERRINFO.REASON takes (R271). -/
inductive Reason where
  | none | zeroOperand | outOfRange | regRange | capacity | count | reservedOpcode | reservedField | notCoprime
  deriving DecidableEq, Repr

/-- The fields of ERRINFO (R39); bits [31:18] are reserved and read 0. -/
structure ErrInfo where
  reg : Reg
  reason : Reason
  index : BitVec 10
  deriving DecidableEq, Repr

/-- The stored fields of STATUS (R37). BUSY is the engine's phase (R40) and ERR is `ERRCODE ≠ 0`, so neither is stored
twice (DEDUCED, log 6); bits [31:16] are reserved and read 0. -/
structure Status where
  done : Bool
  prime : Bool
  xneg : Bool
  yneg : Bool
  overrun : Bool
  busyacc : Bool
  errcode : ErrCode
  deriving DecidableEq, Repr

/-- The results of a command that are not yet committed (R40, R165): the register writes, the flags its rule gives,
and ERRINFO.INDEX (nonzero only for MRTEST's composite round, R245). -/
structure Staged where
  writes : List (Reg × Nat)
  prime : Bool
  xneg : Bool
  yneg : Bool
  index : BitVec 10
  deriving DecidableEq, Repr

/-- The hidden state of a command in flight (R40): the accepted word, the snapshot of the bank taken at acceptance
(R152), and the random words received so far, oldest first, which are all that an algorithm carries from one engine
step to the next (R155, R247). -/
structure Flight where
  cmd : Word
  snap : Bank
  drawn : List Word
  deriving DecidableEq, Repr

/-- The engine's phase with its hidden state: IDLE, where it is empty, or RUNNING (R40, R43). -/
inductive Engine where
  | idle
  | running (f : Flight)
  deriving DecidableEq, Repr

/-- The width of a host access (R81): only a full 32-bit word is admitted (DESIGN CHOICE, log 13). -/
inductive Size where
  | byte | half | word
  /-- a 32-bit access with a partial byte enable -/
  | partialEnable
  deriving DecidableEq, Repr

/-- A host bus access (R81, R90). -/
inductive Access where
  | read (addr : Addr) (size : Size)
  | write (addr : Addr) (size : Size) (data : Word)
  deriving DecidableEq, Repr

/-- An event of the total order of steps (R93): which agent moves, and what it brings (R8, R102). -/
inductive Input where
  /-- the host makes one bus access -/
  | access (a : Access)
  /-- the command engine takes its step (R154) -/
  | engine
  /-- the random-word source asserts `rnd_valid` with this word on `rnd_data` (R100) -/
  | randomWord (w : Word)
  /-- the `rst` input is applied (R300) -/
  | reset
  deriving DecidableEq, Repr

/-- The block's answer to a host access: read data, a write acknowledge, or a bus error (R81). -/
inductive Response where
  | data (w : Word)
  | ack
  | busError
  deriving DecidableEq, Repr

/-- The state of the block. `inputs` and `resp` are the model's own (DESIGN CHOICE, log 2, log 4); everything else is the
spec's. There is no memory and no program counter to hold (R34, R42, R80; log 10). -/
structure State where
  /-- the operand width `W` (R9); no step changes it -/
  width : Width
  /-- the operand registers (R30) -/
  x : Bank
  /-- CTRL.IE (R36) -/
  ie : Bool
  /-- STATUS (R37) -/
  status : Status
  /-- CMD (R38) -/
  cmd : Word
  /-- ERRINFO (R39) -/
  errinfo : ErrInfo
  /-- the engine's phase and hidden state (R40) -/
  engine : Engine
  /-- results not yet committed (R40); empty between steps -/
  staged : Option Staged
  /-- `rnd_req` (R41, R100) -/
  rndReq : Bool
  /-- MODEL's own: the response to the last host access (R81) -/
  resp : Option Response
  /-- MODEL's own: the coming events, first one first (R93) -/
  inputs : List Input
  deriving DecidableEq, Repr

/-- Why the machine stops. Both are the checks the spec asks of a model, and neither is expected to occur
(93_implementation_defined.md S10, S11; log 11). -/
inductive Fault where
  /-- raised by XGCD when a coefficient's magnitude is `2^W` or more (R207, S10). Safe: the model stops. -/
  | xgcdMagnitude
  /-- raised by MODINV and by the inverses of CRT when the normalised value is outside `[0, m)` (R221, S11). Safe: the
  model stops. -/
  | inverseOutOfRange
  deriving DecidableEq, Repr

/-- Why a step has no meaning. -/
inductive Refusal where
  /-- raised by an arm of `exec` whose command has no meaning yet (no arm is left so). Safe: the model stops. -/
  | notModelled (mnemonic : String)
  deriving DecidableEq, Repr

/-- ERRINFO all zero (R39). -/
def ErrInfo.zero : ErrInfo := ⟨0, .none, 0⟩

/-- STATUS all zero (R43). -/
def Status.zero : Status := ⟨false, false, false, false, false, false, .none⟩

/-- Every operand register 0 (R43). -/
def Bank.zero : Bank := Vector.replicate 16 0

/-- The state right after reset of an instance of width `W` (R43, R301), with no event coming. -/
def State.resetAt (w : Width) : State where
  width := w
  x := Bank.zero
  ie := false
  status := Status.zero
  cmd := 0
  errinfo := ErrInfo.zero
  engine := .idle
  staged := none
  rndReq := false
  resp := none
  inputs := []

/-- The machine right after reset (R43), for the width `Config.resetWidth` (log 1). -/
def State.reset : State := State.resetAt Config.resetWidth

end Sys2Proof.Machine
end

