-- ==== Sys2Proof/Machine/Flags.lean ====
section
/-! DEFINITION. STATUS, CTRL, PARAM and ERRINFO as the words software reads, their write rules, and the interrupt output
(10_state.md R35 to R39, 60_exceptions.md R270, R271, R280). -/

namespace Sys2Proof.Machine

/-- The ERRCODE values of R270. -/
def ErrCode.code : ErrCode → BitVec 8
  | .none => 0x00
  | .illegal => 0x01
  | .invalidInput => 0x02
  | .noInverse => 0x03

/-- The REASON values of R271. -/
def Reason.code : Reason → BitVec 4
  | .none => 0
  | .zeroOperand => 1
  | .outOfRange => 2
  | .regRange => 3
  | .capacity => 4
  | .count => 5
  | .reservedOpcode => 6
  | .reservedField => 7
  | .notCoprime => 8

/-- STATUS.BUSY: 1 exactly when the engine is RUNNING (R40). -/
def Engine.busy : Engine → Bool
  | .idle => false
  | .running _ => true

/-- STATUS.BUSY of a state (R37). -/
def State.busy (s : State) : Bool := s.engine.busy

/-- STATUS.ERR: 1 exactly when ERRCODE is not 0 (R37). -/
def Status.err (t : Status) : Bool := t.errcode != .none

/-- The STATUS word (R37), bit 0 on the right. -/
def State.statusWord (s : State) : Word :=
  (0#16 ++ s.status.errcode.code ++ BitVec.ofBool s.status.busyacc ++ BitVec.ofBool s.status.overrun
    ++ BitVec.ofBool s.status.yneg ++ BitVec.ofBool s.status.xneg ++ BitVec.ofBool s.status.prime
    ++ BitVec.ofBool s.status.err ++ BitVec.ofBool s.status.done ++ BitVec.ofBool s.busy : BitVec 32)

/-- The CTRL word (R36). -/
def State.ctrlWord (s : State) : Word := (0#31 ++ BitVec.ofBool s.ie : BitVec 32)

/-- The PARAM word `{KMAX, NREG, WORDS}` (R35). -/
def paramWord (w : Width) : Word :=
  (BitVec.ofNat 8 Config.kMax ++ BitVec.ofNat 8 Config.nreg ++ BitVec.ofNat 16 w.words : BitVec 32)

/-- The ERRINFO word (R39): INDEX in [17:8], REASON in [7:4], REG in [3:0]. -/
def ErrInfo.word (e : ErrInfo) : Word :=
  (0#14 ++ e.index ++ e.reason.code ++ BitVec.ofNat 4 e.reg.val : BitVec 32)

/-- A write to STATUS clears each W1C bit written as 1 (DONE [1], OVERRUN [6], BUSYACC [7]) and ignores the rest (R37). -/
def Status.clearWritten (t : Status) (v : Word) : Status :=
  { t with
    done := t.done && !v.getLsbD 1
    overrun := t.overrun && !v.getLsbD 6
    busyacc := t.busyacc && !v.getLsbD 7 }

/-- What the acceptance of a command clears: DONE, ERRCODE (with it ERR), PRIME, XNEG and YNEG; not OVERRUN, not BUSYACC
(R37, R152). -/
def Status.atAcceptance (t : Status) : Status :=
  { t with done := false, prime := false, xneg := false, yneg := false, errcode := .none }

/-- STATUS at a completion without error (R165). -/
def Status.atSuccess (t : Status) (prime xneg yneg : Bool) : Status :=
  { t with done := true, prime := prime, xneg := xneg, yneg := yneg, errcode := .none }

/-- STATUS at a completion with an error (R157). -/
def Status.atError (t : Status) (code : ErrCode) : Status :=
  { t with done := true, prime := false, xneg := false, yneg := false, errcode := code }

/-- The level interrupt output `irq = CTRL.IE AND STATUS.DONE` (R280). -/
def State.irq (s : State) : Bool := s.ie && s.status.done

end Sys2Proof.Machine
end

