-- ==== Sys2Proof/Machine/Operands.lean ====
section
/-! DEFINITION. The operand forms: a register, a register array (30_encoding.md R123, 40_command_cycle.md R158), the
words of an operand (20_memory.md R84), and the snapshot a command reads (R152). -/

namespace Sys2Proof.Machine

/-- `x[i]` of 00_scope.md R17: a register as an unsigned integer. -/
def Bank.read (b : Bank) (r : Reg) : Nat := b.get r

/-- `x[i] <- v` of R17. -/
def Bank.write (b : Bank) (r : Reg) (v : Nat) : Bank := b.set r.val v r.isLt

/-- The register writes of a completion, in order (R165). -/
def Bank.writeAll (b : Bank) (writes : List (Reg × Nat)) : Bank :=
  writes.foldl (fun acc p => acc.write p.1 p.2) b

/-- Every register lies in `[0, 2^W)` (R30). -/
def Bank.fits (b : Bank) (w : Width) : Prop := ∀ r : Reg, b.read r < w.bound

/-- The registers of the array of `k` elements from index `base`, element `i` at `base + i`; none when one of them would
be past `r15`. Indices never wrap (R123, R158). -/
def regArray : Nat → Nat → Option (List Reg)
  | _, 0 => some []
  | base, k + 1 =>
    if h : base < 16 then (regArray (base + 1) k).map (fun rest => ⟨base, h⟩ :: rest) else none

/-- The first element of an array that is bad, with its element index, counting from `i` (R275: the lowest index is
reported). -/
def firstBad (bad : Nat → Bool) (b : Bank) : Nat → List Reg → Option (Nat × Reg)
  | _, [] => none
  | i, r :: rest => if bad (b.read r) then some (i, r) else firstBad bad b (i + 1) rest

/-- Word `j` of an operand: its bits `[32j+31 : 32j]` (R84). -/
def operandWord (v j : Nat) : Word := BitVec.ofNat 32 (v / 2 ^ (32 * j))

/-- The operand `v` with word `j` replaced and every other bit unchanged (R85). -/
def setOperandWord (v j : Nat) (d : Word) : Nat :=
  v % 2 ^ (32 * j) + 2 ^ (32 * j) * (d.toNat + 2 ^ 32 * (v / 2 ^ (32 * (j + 1))))

/-- The bank a command reads: the snapshot of the command in flight (R152). With no command in flight it is the bank
itself, which is what a snapshot taken now would be (DEDUCED, log 5). -/
def State.snapshot (s : State) : Bank :=
  match s.engine with
  | .idle => s.x
  | .running f => f.snap

/-- The random words the command in flight has received, oldest first (R100, R247). -/
def State.drawn (s : State) : List Word :=
  match s.engine with
  | .idle => []
  | .running f => f.drawn

end Sys2Proof.Machine
end

