-- ==== Sys2Proof/Machine/Ops.lean ====
section
/-! DEFINITION. The operations every command shares: acceptance (40_command_cycle.md R152), what a command's computation
can come to (R155), success (R165), error completion (R157, 60_exceptions.md R276), the wait for a random word
(20_memory.md R100), and reset (70_reset_and_hazards.md R300). -/

namespace Sys2Proof.Machine

/-- What an error reports: `raise <ERROR>(info)` of 00_scope.md R17. -/
structure CmdError where
  code : ErrCode
  info : ErrInfo
  deriving DecidableEq, Repr

/-- What a command's computation comes to. It is a function of the command, the snapshot and the random words drawn (R155). -/
inductive CmdResult where
  /-- results to commit (R165) -/
  | success (r : Staged)
  /-- the first check that fails (R156, R275) -/
  | raise (e : CmdError)
  /-- another random word is needed before the command can go on (R100, R247) -/
  | needWord
  /-- a check the spec asks of a model failed (S10, S11) -/
  | stop (why : Fault)
  deriving DecidableEq, Repr

/-- An INVALID_INPUT error (R272). -/
def invalidInput (reason : Reason) (reg : Reg) (index : Nat) : CmdResult :=
  .raise ⟨.invalidInput, ⟨reg, reason, BitVec.ofNat 10 index⟩⟩

/-- A NO_INVERSE error (R272): its REASON is always NOT_COPRIME. -/
def noInverse (reg : Reg) (index : Nat) : CmdResult :=
  .raise ⟨.noInverse, ⟨reg, .notCoprime, BitVec.ofNat 10 index⟩⟩

/-- The error of a word that selects no command (R127, R272): REG and INDEX are 0. -/
def illegalError : IllegalWord → CmdError
  | .reservedOpcode => ⟨.illegal, ⟨0, .reservedOpcode, 0⟩⟩
  | .reservedField => ⟨.illegal, ⟨0, .reservedField, 0⟩⟩

/-- A success that writes one register and gives no flag. -/
def oneResult (rd : Reg) (v : Nat) : CmdResult := .success ⟨[(rd, v)], false, false, false, 0⟩

/-- Acceptance of a command word (R152), whether it is legal or not. -/
def State.accept (s : State) (w : Word) : State :=
  { s with
    cmd := w
    engine := .running ⟨w, s.x, []⟩
    status := s.status.atAcceptance
    errinfo := ErrInfo.zero }

/-- Inputs of a write to CMD: accepted while idle (R152), dropped with OVERRUN set while busy (R153). -/
def State.writeCmd (s : State) (w : Word) : State :=
  if s.busy then { s with status := { s.status with overrun := true } } else s.accept w

/-- Stage a command's results (R40, R165). -/
def State.stage (s : State) (r : Staged) : State := { s with staged := some r }

/-- Commit the staged results in one step (R165): the registers, STATUS and ERRINFO together, and the engine is IDLE. -/
def State.commit (s : State) : State :=
  match s.staged with
  | none => s
  | some r =>
    { s with
      x := s.x.writeAll r.writes
      status := s.status.atSuccess r.prime r.xneg r.yneg
      errinfo := ⟨0, .none, r.index⟩
      engine := .idle
      staged := none
      rndReq := false }

/-- Complete with an error (R157, R276): ERRCODE and ERRINFO are set, DONE is set, BUSY is cleared, and no operand
register is written. This is the block's whole "trap entry"; nothing is saved and nothing is redirected. -/
def State.completeError (s : State) (e : CmdError) : State :=
  { s with
    status := s.status.atError e.code
    errinfo := e.info
    engine := .idle
    staged := none
    rndReq := false }

/-- Raise `rnd_req` and stay RUNNING (R41, R100). -/
def State.requestWord (s : State) : State := { s with rndReq := true }

/-- The engine step of a command whose computation came to `r`. -/
def finish (r : CmdResult) (s : State) : Host.Outcome State Fault Refusal :=
  match r with
  | .success staged => .next (s.stage staged).commit
  | .raise e => .next (s.completeError e)
  | .needWord => .next s.requestWord
  | .stop why => .fault why

/-- The random-word source offers a word (R100): it is transferred when `rnd_req = 1`, and the request is then
withdrawn; with `rnd_req = 0` nothing is transferred (DEDUCED, log 7). -/
def State.offerWord (s : State) (w : Word) : State :=
  match s.rndReq, s.engine with
  | true, .running f => { s with engine := .running { f with drawn := f.drawn ++ [w] }, rndReq := false }
  | _, _ => s

/-- The `rst` input (R300): every piece of state takes its value of R43; the events still to come stay
(log 2), and no access falls inside the reset (DEDUCED, log 14). -/
def State.applyReset (s : State) : State := { State.resetAt s.width with inputs := s.inputs }

end Sys2Proof.Machine
end

