-- ==== Sys2Proof/Machine/BitScan.lean ====
section
/-! DEFINITION. The bit-scan helpers: BITLEN and LSB (47_bit_scan.md). -/

namespace Sys2Proof.Machine

/-- `bitlen(n)`: 1 at 0, else the `k` with `2^(k-1) ≤ n < 2^k` (R261). -/
def bitlen (n : Nat) : Nat := if n = 0 then 1 else n.log2 + 1

/-- The loop of R263; `n` halves each turn, so `fuel = n` is enough. -/
def lsbLoop : Nat → Nat → Nat → Nat
  | 0, _, s => s
  | fuel + 1, n, s => if n % 2 = 0 then lsbLoop fuel (n / 2) (s + 1) else s

/-- `lsb(n)`, the exponent of the largest power of two dividing `n ≥ 1` (R263). -/
def lsb (n : Nat) : Nat := lsbLoop n n 0

/-- What BITLEN computes (R261): no operand is rejected. -/
def bitlenResult (b : Bank) (rd rn : Reg) : CmdResult := oneResult rd (bitlen (b.read rn))

/-- What LSB computes (R263). -/
def lsbResult (b : Bank) (rd rn : Reg) : CmdResult :=
  if b.read rn = 0 then invalidInput .zeroOperand rn 0 else oneResult rd (lsb (b.read rn))

/-- BITLEN rd, rn (R261). -/
def execBitlen (rd rn : Reg) (s : State) : Host.Outcome State Fault Refusal :=
  finish (bitlenResult s.snapshot rd rn) s

/-- LSB rd, rn (R263). -/
def execLsb (rd rn : Reg) (s : State) : Host.Outcome State Fault Refusal :=
  finish (lsbResult s.snapshot rd rn) s

end Sys2Proof.Machine
end

