-- ==== Sys2Proof/Machine/ExtendedGcd.lean ====
section
/-! DEFINITION. The extended_gcd_core: GCD, BGCD, XGCD (43_extended_gcd_core.md). The second variable of each loop strictly
decreases (R200), so its first value is enough fuel. -/

namespace Sys2Proof.Machine

/-- The Euclidean loop of R201. -/
def gcdLoop : Nat → Nat → Nat → Nat
  | 0, a, _ => a
  | fuel + 1, a, b => if b = 0 then a else gcdLoop fuel b (a % b)

/-- `gcd(a, b)` (R201). -/
def gcdEuclid (a b : Nat) : Nat := gcdLoop b a b

/-- The remainder reflected around `b` when `2·r > b` (R203, C2). -/
def reflect (r b : Nat) : Nat := if 2 * r > b then b - r else r

/-- The balanced loop of R203. -/
def bgcdLoop : Nat → Nat → Nat → Nat
  | 0, a, _ => a
  | fuel + 1, a, b => if b = 0 then a else bgcdLoop fuel b (reflect (a % b) b)

/-- `balancedGcd(a, b)` (R203). -/
def gcdBalanced (a b : Nat) : Nat := bgcdLoop b a b

/-- A gcd with its signed Bézout coefficients (R205). -/
structure Bezout where
  g : Nat
  x : Int
  y : Int
  deriving DecidableEq, Repr

/-- The iterative coefficient update of R205. -/
def xgcdLoop : Nat → Nat → Nat → Int → Int → Int → Int → Bezout
  | 0, oldR, _, oldS, _, oldT, _ => ⟨oldR, oldS, oldT⟩
  | fuel + 1, oldR, r, oldS, s, oldT, t =>
    if r = 0 then ⟨oldR, oldS, oldT⟩
    else xgcdLoop fuel r (oldR - oldR / r * r) s (oldS - (oldR / r : Nat) * s) t (oldT - (oldR / r : Nat) * t)

/-- `xgcd(a, b)`: `(x, y, g)` with `a·x + b·y = g` (R205). -/
def xgcd (a b : Nat) : Bezout := xgcdLoop b a b 1 0 0 1

/-- What GCD computes (R201). -/
def gcdResult (b : Bank) (rd ra rb : Reg) : CmdResult :=
  if b.read ra = 0 then invalidInput .zeroOperand ra 0
  else oneResult rd (gcdEuclid (b.read ra) (b.read rb))

/-- What BGCD computes (R203). -/
def bgcdResult (b : Bank) (rd ra rb : Reg) : CmdResult :=
  if b.read ra = 0 then invalidInput .zeroOperand ra 0
  else oneResult rd (gcdBalanced (b.read ra) (b.read rb))

/-- The writes and flags of XGCD (R205, R206): `g`, `|x|`, `|y|` into the three registers, the signs into XNEG and YNEG. -/
def bezoutStaged (rg rx ry : Reg) (z : Bezout) : Staged :=
  ⟨[(rg, z.g), (rx, z.x.natAbs), (ry, z.y.natAbs)], false, decide (z.x < 0), decide (z.y < 0), 0⟩

/-- What XGCD computes (R205), the checks in the order RD, a, b; the magnitudes are checked to fit a register (R207, S10). -/
def xgcdResult (w : Width) (b : Bank) (rd ra rb : Reg) : CmdResult :=
  if h : rd.val + 2 < 16 then
    if b.read ra = 0 then invalidInput .zeroOperand ra 0
    else if b.read rb = 0 then invalidInput .zeroOperand rb 0
    else
      let z := xgcd (b.read ra) (b.read rb)
      if z.x.natAbs < w.bound ∧ z.y.natAbs < w.bound then
        .success (bezoutStaged rd ⟨rd.val + 1, by omega⟩ ⟨rd.val + 2, h⟩ z)
      else .stop .xgcdMagnitude
  else invalidInput .regRange rd 0

/-- GCD rd, ra, rb (R201). -/
def execGcd (rd ra rb : Reg) (s : State) : Host.Outcome State Fault Refusal :=
  finish (gcdResult s.snapshot rd ra rb) s

/-- BGCD rd, ra, rb (R203). -/
def execBgcd (rd ra rb : Reg) (s : State) : Host.Outcome State Fault Refusal :=
  finish (bgcdResult s.snapshot rd ra rb) s

/-- XGCD rd, ra, rb (R205). -/
def execXgcd (rd ra rb : Reg) (s : State) : Host.Outcome State Fault Refusal :=
  finish (xgcdResult s.width s.snapshot rd ra rb) s

end Sys2Proof.Machine
end

