-- ==== Sys2Proof/Machine/ModularInverse.lean ====
section
/-! DEFINITION. The modular_inverse_engine: MODINV (44_modular_inverse_engine.md). -/

namespace Sys2Proof.Machine

/-- What an inversion comes to (R221): the inverse, NO_INVERSE, or a normalised value outside `[0, m)` (S11). -/
inductive Inverse where
  | found (u : Nat)
  | notCoprime
  | outOfRange
  deriving DecidableEq, Repr

/-- `modinv(n, m)` of R221: the coefficient of `n`, with `m` added when it is negative, checked to lie in `[0, m)`. -/
def modinv (n m : Nat) : Inverse :=
  let z := xgcd n m
  if z.g ≠ 1 then .notCoprime
  else
    let u := if z.x < 0 then z.x + m else z.x
    if 0 ≤ u ∧ u < m then .found u.toNat else .outOfRange

/-- What MODINV computes (R221). -/
def modinvResult (b : Bank) (rd rn rm : Reg) : CmdResult :=
  if b.read rn = 0 then invalidInput .zeroOperand rn 0
  else if b.read rm = 0 then invalidInput .zeroOperand rm 0
  else
    match modinv (b.read rn) (b.read rm) with
    | .found u => oneResult rd u
    | .notCoprime => noInverse rn 0
    | .outOfRange => .stop .inverseOutOfRange

/-- MODINV rd, rn, rm (R221). -/
def execModinv (rd rn rm : Reg) (s : State) : Host.Outcome State Fault Refusal :=
  finish (modinvResult s.snapshot rd rn rm) s

end Sys2Proof.Machine
end

