-- ==== Sys2Proof/Machine/CrtReconstructor.lean ====
section
/-! DEFINITION. The crt_reconstructor: CRT (45_crt_reconstructor.md). -/

namespace Sys2Proof.Machine

/-- The product of the moduli, multiplied up in order from `acc` (R231). -/
def modulusProduct (b : Bank) : Nat → List Reg → Nat
  | acc, [] => acc
  | acc, r :: rest => modulusProduct b (acc * b.read r) rest

/-- The first modulus whose prefix product reaches the bound, with its index (R232). -/
def capacityExceeded (bound : Nat) (b : Bank) : Nat → Nat → List Reg → Option (Nat × Reg)
  | _, _, [] => none
  | acc, i, r :: rest =>
    if bound ≤ acc * b.read r then some (i, r) else capacityExceeded bound b (acc * b.read r) (i + 1) rest

/-- The last loop of R231: the sum `Σ x_i · M_i · (M_i⁻¹ mod m_i)`, exact, then reduced modulo `M`. The arrays come as
pairs (residue register, modulus register); element `i` is the first of the list. Moduli that are not coprime give NO_INVERSE
(R233; DEDUCED, log 17). -/
def crtSum (b : Bank) (rd : Reg) (bigM : Nat) : Nat → Nat → List (Reg × Reg) → CmdResult
  | _, sum, [] => oneResult rd (sum % bigM)
  | i, sum, (rx, rm) :: rest =>
    let mi := bigM / b.read rm
    match modinv mi (b.read rm) with
    | .found inv => crtSum b rd bigM (i + 1) (sum + b.read rx * mi * inv) rest
    | .notCoprime => noInverse rm i
    | .outOfRange => .stop .inverseOutOfRange

/-- The checks and the computation of R231 once the two arrays are known to lie in the bank. -/
def crtCompute (w : Width) (b : Bank) (rd : Reg) (xs ms : List Reg) : CmdResult :=
  match firstBad (· == 0) b 0 ms with
  | some (i, r) => invalidInput .zeroOperand r i
  | none =>
    match capacityExceeded w.bound b 1 0 ms with
    | some (i, r) => invalidInput .capacity r i
    | none => crtSum b rd (modulusProduct b 1 ms) 0 0 (xs.zip ms)

/-- What CRT computes (R231), the checks in the order COUNT, the residue array, the modulus array, the moduli. -/
def crtResult (w : Width) (b : Bank) (rd rx rm : Reg) (k : Nat) : CmdResult :=
  if k = 0 ∨ Config.kMax < k then invalidInput .count 0 0
  else
    match regArray rx k with
    | none => invalidInput .regRange rx 0
    | some xs =>
      match regArray rm k with
      | none => invalidInput .regRange rm 0
      | some ms => crtCompute w b rd xs ms

/-- CRT rd, rx, rm, #k (R231). -/
def execCrt (rd rx rm : Reg) (k : Nat) (s : State) : Host.Outcome State Fault Refusal :=
  finish (crtResult s.width s.snapshot rd rx rm k) s

end Sys2Proof.Machine
end

