-- ==== Sys2Proof/Machine/ModularMultiplier.lean ====
section
/-! DEFINITION. The modular_multiplier: MODMUL (41_modular_multiplier.md). -/

namespace Sys2Proof.Machine

/-- `mulmod(a, b, m) = (a · b) mod m`, the product exact (R180). -/
def mulmod (a b m : Nat) : Nat := (a * b) % m

/-- What MODMUL computes (R181). -/
def modmulResult (b : Bank) (rd ra rb rm : Reg) : CmdResult :=
  if b.read rm = 0 then invalidInput .zeroOperand rm 0
  else oneResult rd (mulmod (b.read ra) (b.read rb) (b.read rm))

/-- MODMUL rd, ra, rb, rm (R181). -/
def execModmul (rd ra rb rm : Reg) (s : State) : Host.Outcome State Fault Refusal :=
  finish (modmulResult s.snapshot rd ra rb rm) s

end Sys2Proof.Machine
end

