-- ==== Sys2Proof/Machine/ModularExponentiator.lean ====
section
/-! DEFINITION. The modular_exponentiator: MODPOW (42_modular_exponentiator.md). -/

namespace Sys2Proof.Machine

/-- The right-to-left loop of R191; the exponent halves each turn, so `fuel = k` is enough. -/
def powLoop (m : Nat) : Nat → Nat → Nat → Nat → Nat
  | 0, result, _, _ => result
  | fuel + 1, result, base, k =>
    if k = 0 then result
    else powLoop m fuel (if k % 2 = 1 then mulmod result base m else result) (mulmod base base m) (k / 2)

/-- `powmod(n, e, m) = n^e mod m` by square and multiply (R190, R191). -/
def powmod (n e m : Nat) : Nat := powLoop m e (1 % m) (n % m) e

/-- What MODPOW computes (R191). -/
def modpowResult (b : Bank) (rd rn re rm : Reg) : CmdResult :=
  if b.read rm = 0 then invalidInput .zeroOperand rm 0
  else oneResult rd (powmod (b.read rn) (b.read re) (b.read rm))

/-- MODPOW rd, rn, re, rm (R191). -/
def execModpow (rd rn re rm : Reg) (s : State) : Host.Outcome State Fault Refusal :=
  finish (modpowResult s.snapshot rd rn re rm) s

end Sys2Proof.Machine
end

