-- ==== Sys2Proof/Machine/MillerRabin.lean ====
section
/-! DEFINITION. The miller_rabin_primality_tester: MRTEST with witness registers and with random witnesses
(46_miller_rabin_primality_tester.md). -/

namespace Sys2Proof.Machine

/-- Up to `count` further squarings of `y`, passing at the first that equals `n - 1` (R243, R244). -/
def squaringsPass (n : Nat) : Nat → Nat → Bool
  | 0, _ => false
  | count + 1, y =>
    let z := mulmod y y n
    if z = n - 1 then true else squaringsPass n count z

/-- One round of R243 for `n ≥ 4`: whether witness `a` passes. `s - 1` is a subtraction of naturals, so an even `n`
(`s = 0`) gets no squaring, as `max(s - 1, 0)` says. -/
def witnessPasses (n a : Nat) : Bool :=
  let s := lsb (n - 1)
  let d := (n - 1) / 2 ^ s
  let y := powmod a d n
  if y = 1 ∨ y = n - 1 then true else squaringsPass n (s - 1) y

/-- What the rounds come to (R243): every round passed, a round found `n` composite, or another random word is needed. -/
inductive Verdict where
  | prime
  | composite (round : Nat)
  | needWord
  deriving DecidableEq, Repr

/-- The rounds with given witnesses, from round `i` (R243, R246). -/
def roundsWith (n : Nat) : Nat → List Nat → Verdict
  | _, [] => .prime
  | i, a :: rest => if witnessPasses n a then roundsWith n (i + 1) rest else .composite i

/-- `nw` words as one number, the first word least significant, and the words left; none when there are too few (R247). -/
def takeWords : Nat → List Word → Option (Nat × List Word)
  | 0, ws => some (0, ws)
  | _ + 1, [] => none
  | nw + 1, w :: ws => (takeWords nw ws).map (fun p => (w.toNat + 2 ^ 32 * p.1, p.2))

/-- `span = n - 4` of R247. -/
def witnessSpan (n : Nat) : Nat := n - 4

/-- Words per attempt: `(bits + 31) div 32` with `bits = bitlen(span)` (R247). -/
def wordsPerAttempt (n : Nat) : Nat := (bitlen (witnessSpan n) + 31) / 32

/-- The attempts of `draw_witness(n)` on the words received (R247): the first attempt whose low `bits` bits are at most
`span` gives the witness `2 + v`; none when the words run out first. Each attempt takes at least one word, so as
many attempts as there are words are enough. -/
def drawAttempts (n : Nat) : Nat → List Word → Option (Nat × List Word)
  | 0, _ => none
  | attempts + 1, ws =>
    match takeWords (wordsPerAttempt n) ws with
    | none => none
    | some (v, rest) =>
      if v % 2 ^ bitlen (witnessSpan n) ≤ witnessSpan n then some (2 + v % 2 ^ bitlen (witnessSpan n), rest)
      else drawAttempts n attempts rest

/-- `draw_witness(n)` on the words received (R247). -/
def drawWitness (n : Nat) (ws : List Word) : Option (Nat × List Word) := drawAttempts n ws.length ws

/-- The rounds with random witnesses, `left` of them from round `i`: each round draws its witness when it starts, and
nothing is drawn after the verdict is known (R243, R247). -/
def roundsRandom (n : Nat) : Nat → Nat → List Word → Verdict
  | 0, _, _ => .prime
  | left + 1, i, ws =>
    match drawWitness n ws with
    | none => .needWord
    | some (a, rest) => if witnessPasses n a then roundsRandom n left (i + 1) rest else .composite i

/-- A verdict as results: `x[RD]` and PRIME get the bit, and ERRINFO.INDEX the round of a composite `n ≥ 4` (R242, R245). -/
def verdictResult (rd : Reg) : Verdict → CmdResult
  | .prime => .success ⟨[(rd, 1)], true, false, false, 0⟩
  | .composite round => .success ⟨[(rd, 0)], false, false, false, BitVec.ofNat 10 round⟩
  | .needWord => .needWord

/-- The top level of R242 from the operand on: 0 is rejected, 1 is composite, 2 and 3 are prime, and `onLarge` is run
for `n ≥ 4`. -/
def mrTop (b : Bank) (rd rn : Reg) (onLarge : CmdResult) : CmdResult :=
  if b.read rn = 0 then invalidInput .zeroOperand rn 0
  else if b.read rn = 1 then verdictResult rd (.composite 0)
  else if b.read rn = 2 ∨ b.read rn = 3 then verdictResult rd .prime
  else onLarge

/-- What MRTEST with random witnesses computes from the words drawn so far (R242, R247). The count 0 is rejected (R156); a
count above 1023 cannot be written in the field (DESIGN CHOICE, log 12). -/
def mrtestRandomResult (b : Bank) (drawn : List Word) (rd rn : Reg) (rounds : Nat) : CmdResult :=
  if rounds = 0 ∨ Config.mrRoundsMax < rounds then invalidInput .count 0 0
  else mrTop b rd rn (verdictResult rd (roundsRandom (b.read rn) rounds 0 drawn))

/-- A witness outside `[2, n - 2]` (R242, R246), for `n ≥ 4`. -/
def witnessOutOfRange (n a : Nat) : Bool := decide (a < 2) || decide (n - 2 < a)

/-- The witness registers are checked, then the rounds are run (R242, R246). -/
def witnessRounds (b : Bank) (rd rn : Reg) (ws : List Reg) : CmdResult :=
  match firstBad (witnessOutOfRange (b.read rn)) b 0 ws with
  | some (i, r) => invalidInput .outOfRange r i
  | none => verdictResult rd (roundsWith (b.read rn) 0 (ws.map b.read))

/-- What MRTEST with witness registers computes (R242, R246). -/
def mrtestRegsResult (b : Bank) (rd rn rw : Reg) (rounds : Nat) : CmdResult :=
  if rounds = 0 ∨ Config.mrRoundsMax < rounds then invalidInput .count 0 0
  else
    match regArray rw rounds with
    | none => invalidInput .regRange rw 0
    | some ws => mrTop b rd rn (witnessRounds b rd rn ws)

/-- MRTEST rd, rn, #rounds: random witnesses (R242). -/
def execMrtestRandom (rd rn : Reg) (rounds : Nat) (s : State) : Host.Outcome State Fault Refusal :=
  finish (mrtestRandomResult s.snapshot s.drawn rd rn rounds) s

/-- MRTEST rd, rn, rw, #rounds: witness registers (R242). -/
def execMrtestRegs (rd rn rw : Reg) (rounds : Nat) (s : State) : Host.Outcome State Fault Refusal :=
  finish (mrtestRegsResult s.snapshot rd rn rw rounds) s

end Sys2Proof.Machine
end

