-- ==== Sys2Proof/Machine/Dispatch.lean ====
section
/-! DEFINITION. The engine step of a decoded command: one arm per constructor of `Instr`. -/

namespace Sys2Proof.Machine

/-- The engine step of command `i` (40_command_cycle.md R154). -/
def exec (i : Instr) (s : State) : Host.Outcome State Fault Refusal :=
  match i with
  | .modmul rd ra rb rm => Sys2Proof.Machine.execModmul rd ra rb rm s
  | .modpow rd rn re rm => Sys2Proof.Machine.execModpow rd rn re rm s
  | .gcd rd ra rb => Sys2Proof.Machine.execGcd rd ra rb s
  | .bgcd rd ra rb => Sys2Proof.Machine.execBgcd rd ra rb s
  | .xgcd rd ra rb => Sys2Proof.Machine.execXgcd rd ra rb s
  | .modinv rd rn rm => Sys2Proof.Machine.execModinv rd rn rm s
  | .crt rd rx rm k => Sys2Proof.Machine.execCrt rd rx rm k s
  | .mrtestRandom rd rn rounds => Sys2Proof.Machine.execMrtestRandom rd rn rounds s
  | .mrtestRegs rd rn rw rounds => Sys2Proof.Machine.execMrtestRegs rd rn rw rounds s
  | .bitlen rd rn => Sys2Proof.Machine.execBitlen rd rn s
  | .lsb rd rn => Sys2Proof.Machine.execLsb rd rn s

end Sys2Proof.Machine
end

