-- ==== Sys2Proof/Machine/HostPort.lean ====
section
/-! DEFINITION. The host bus: the address map, reads and writes (20_memory.md R80 to R91, 10_state.md R31 to R39). -/

namespace Sys2Proof.Machine

/-- What an aligned word address selects (R32, R82, R84). -/
inductive Target where
  | id | param | ctrl | status | cmd | errinfo
  /-- word `j` of register `r` in the operand window -/
  | window (r : Reg) (j : Nat)
  | reserved
  deriving DecidableEq, Repr

/-- The first byte address of the operand window (R82). -/
def windowBase : Nat := 0x8000

/-- The window word an address at or above the window's base selects (R84), or reserved space past the window (R82). -/
def windowTarget (w : Width) (a : Nat) : Target :=
  if h : (a - windowBase) / w.bytes < 16 then
    .window ⟨(a - windowBase) / w.bytes, h⟩ ((a - windowBase) % w.bytes / 4)
  else .reserved

/-- The address map of R82 and R32. -/
def targetOf (w : Width) (a : Addr) : Target :=
  if a = 0x0000#16 then .id
  else if a = 0x0004#16 then .param
  else if a = 0x0008#16 then .ctrl
  else if a = 0x000C#16 then .status
  else if a = 0x0010#16 then .cmd
  else if a = 0x0014#16 then .errinfo
  else if windowBase ≤ a.toNat then windowTarget w a.toNat
  else .reserved

/-- Only an aligned 32-bit access is admitted (R81, R89). -/
def accessAdmitted (a : Addr) (size : Size) : Bool := size == .word && a.toNat % 4 == 0

/-- The word an admitted read of a target returns (R33 to R39, R83, R85, R87). -/
def State.readTarget (s : State) : Target → Word
  | .id => Config.coreId
  | .param => paramWord s.width
  | .ctrl => s.ctrlWord
  | .status => s.statusWord
  | .cmd => s.cmd
  | .errinfo => s.errinfo.word
  | .window r j => if s.busy then 0 else operandWord (s.x.read r) j
  | .reserved => 0

/-- A window access while BUSY = 1 sets BUSYACC (R87). -/
def State.flagBusyAccess (s : State) : State := { s with status := { s.status with busyacc := true } }

/-- The effect of an admitted read: only a window read while BUSY = 1 has one (R87, R91). -/
def State.afterRead (s : State) : Target → State
  | .window _ _ => if s.busy then s.flagBusyAccess else s
  | .id => s
  | .param => s
  | .ctrl => s
  | .status => s
  | .cmd => s
  | .errinfo => s
  | .reserved => s

/-- The effect of an admitted write (R31, R36 to R38, R83, R85, R87). -/
def State.writeTarget (s : State) (v : Word) : Target → State
  | .ctrl => { s with ie := v.getLsbD 0 }
  | .status => { s with status := s.status.clearWritten v }
  | .cmd => s.writeCmd v
  | .window r j =>
    if s.busy then s.flagBusyAccess else { s with x := s.x.write r (setOperandWord (s.x.read r) j v) }
  | .id => s
  | .param => s
  | .errinfo => s
  | .reserved => s

/-- One host access (R90): its effect, and the response the host gets. A bus error has no effect (R81, R273). -/
def State.hostAccess (s : State) : Access → State
  | .read a size =>
    if accessAdmitted a size then
      { s.afterRead (targetOf s.width a) with resp := some (.data (s.readTarget (targetOf s.width a))) }
    else { s with resp := some .busError }
  | .write a size v =>
    if accessAdmitted a size then { s.writeTarget v (targetOf s.width a) with resp := some .ack }
    else { s with resp := some .busError }

end Sys2Proof.Machine
end

