-- ==== Sys2Proof/Machine/CommandEngine.lean ====
section
/-! DEFINITION. The engine's step, and one event of the total order of steps (40_command_cycle.md R154, 20_memory.md R93). -/

namespace Sys2Proof.Machine

/-- The engine's step on the word in flight: a command runs (R154), and a word that selects no command completes with
ILLEGAL (R127, R156). -/
def State.runWord (s : State) (w : Word) : Host.Outcome State Fault Refusal :=
  match decode w with
  | .command i => exec i s
  | .illegal why => .next (s.completeError (illegalError why))

/-- The engine's step: nothing while IDLE; otherwise it works on the accepted command word (R40, R154). -/
def State.engineStep (s : State) : Host.Outcome State Fault Refusal :=
  match s.engine with
  | .idle => .next s
  | .running f => s.runWord f.cmd

/-- One event of the total order (R93). A completion and a host's clearing of DONE are two events in either order (H7 of R310; DEDUCED,
log 15). -/
def State.handle (s : State) : Input → Host.Outcome State Fault Refusal
  | .access a => .next (s.hostAccess a)
  | .engine => s.engineStep
  | .randomWord w => .next (s.offerWord w)
  | .reset => .next s.applyReset

end Sys2Proof.Machine
end

