-- ==== Sys2Proof/Machine/Step.lean ====
section
/-! DEFINITION. One step of the machine: the next event of the total order of steps (20_memory.md R93). -/

namespace Sys2Proof.Machine

/-- One step. The first coming event is taken off the list and handled. With no event listed the engine moves, since the
completion of a command in flight is enabled at any time (R154); an idle engine then leaves the state as it is
(DESIGN CHOICE, log 2). -/
def step (s : State) : Host.Outcome State Fault Refusal :=
  match s.inputs with
  | [] => s.engineStep
  | e :: rest => State.handle { s with inputs := rest } e

/-- The command word placed where the next step takes its command from: accepted as by a CMD write (R152), with the
engine the next to move (DESIGN CHOICE, log 3). -/
def State.withFetchWord (s : State) (nbits w : Nat) : State :=
  { s.accept (tableWord nbits w) with inputs := .engine :: s.inputs }

end Sys2Proof.Machine
end

