-- ==== Sys2Proof/Machine/Assembler.lean ====
section
/-! DEFINITION. The assembler syntax (30_encoding.md R130, R131) and the pseudo-instructions (R140): one line of text as a
list of characters, read into the command it stands for. Where blanks may stand, digit forms and empty lines are settled
by log 16 (DESIGN CHOICE). -/

namespace Sys2Proof.Machine

/-- An operand as written: `r0`..`r15`, or `#` and a number (R130). -/
inductive AsmOperand where
  | reg (r : Reg)
  | count (n : Nat)
  deriving DecidableEq, Repr

/-- A decimal digit. -/
def decDigit (c : Char) : Option Nat :=
  if '0' ≤ c ∧ c ≤ '9' then some (c.toNat - '0'.toNat) else none

/-- A hex digit of either case. -/
def hexDigit (c : Char) : Option Nat :=
  if 'a' ≤ c ∧ c ≤ 'f' then some (c.toNat - 'a'.toNat + 10)
  else if 'A' ≤ c ∧ c ≤ 'F' then some (c.toNat - 'A'.toNat + 10)
  else decDigit c

/-- Digits of the given base, most significant first, added on to `acc`. -/
def digitsFrom (digit : Char → Option Nat) (base : Nat) : Nat → List Char → Option Nat
  | acc, [] => some acc
  | acc, c :: rest => (digit c).bind (fun d => digitsFrom digit base (acc * base + d) rest)

/-- A number: decimal, or hex after `0x` (R130). -/
def asmNumber : List Char → Option Nat
  | [] => none
  | '0' :: 'x' :: d :: ds => digitsFrom hexDigit 16 0 (d :: ds)
  | c :: cs => digitsFrom decDigit 10 0 (c :: cs)

/-- A register operand `r0`..`r15` (R130). -/
def asmReg : List Char → Option Reg
  | ['r', c] => (decDigit c).bind (fun n => if h : n < 16 then some ⟨n, h⟩ else none)
  | ['r', '1', c] => (decDigit c).bind (fun n => if h : 10 + n < 16 then some ⟨10 + n, h⟩ else none)
  | _ => none

/-- One operand (R130). -/
def asmOperand : List Char → Option AsmOperand
  | '#' :: rest => (asmNumber rest).map .count
  | cs => (asmReg cs).map .reg

/-- Without the blanks before and after. -/
def trimBlanks (cs : List Char) : List Char :=
  ((cs.dropWhile (· == ' ')).reverse.dropWhile (· == ' ')).reverse

/-- The operands between the commas (R130); none when one of them is not an operand. DESIGN CHOICE (log 16): blanks around an
operand are dropped, and a blank inside one (`r1 5`, `#4 0`, `# 40`) makes it no operand. -/
def asmOperands (cs : List Char) : Option (List AsmOperand) :=
  (cs.splitOn ',').mapM fun op => asmOperand (trimBlanks op)

/-- The command of a mnemonic and its operands, in the order RD, RS1, RS2, RS3, count (R130, R131), with the
pseudo-instructions of R140. -/
def asmCommand (mnemonic : String) (ops : List AsmOperand) : Option Instr :=
  match mnemonic, ops with
  | "MODMUL", [.reg rd, .reg ra, .reg rb, .reg rm] => some (.modmul rd ra rb rm)
  | "MODPOW", [.reg rd, .reg rn, .reg re, .reg rm] => some (.modpow rd rn re rm)
  | "GCD", [.reg rd, .reg ra, .reg rb] => some (.gcd rd ra rb)
  | "BGCD", [.reg rd, .reg ra, .reg rb] => some (.bgcd rd ra rb)
  | "XGCD", [.reg rd, .reg ra, .reg rb] => some (.xgcd rd ra rb)
  | "MODINV", [.reg rd, .reg rn, .reg rm] => some (.modinv rd rn rm)
  | "CRT", [.reg rd, .reg rx, .reg rm, .count k] => some (.crt rd rx rm k)
  | "MRTEST", [.reg rd, .reg rn, .count rounds] => some (.mrtestRandom rd rn rounds)
  | "MRTEST", [.reg rd, .reg rn, .reg rw, .count rounds] => some (.mrtestRegs rd rn rw rounds)
  | "BITLEN", [.reg rd, .reg rn] => some (.bitlen rd rn)
  | "LSB", [.reg rd, .reg rn] => some (.lsb rd rn)
  | "SQRMOD", [.reg rd, .reg rs, .reg rm] => some (Instr.sqrmod rd rs rm)
  | "CRT2", [.reg rd, .reg rx, .reg rm] => some (Instr.crt2 rd rx rm)
  | "ISPRIME", [.reg rd, .reg rn] => some (Instr.isprime rd rn)
  | _, _ => none

/-- A character of a mnemonic: an upper-case letter, or the digit of `CRT2`. -/
def mnemonicChar (c : Char) : Bool := ('A' ≤ c && c ≤ 'Z') || c == '2'

/-- One line of assembler: what stands before `;`, its mnemonic, its operands; a count that does not fit its field is
refused (R124, R130, R131). DESIGN CHOICE (log 16): blanks may stand before the mnemonic and around operands, one at least
must follow the mnemonic, and none may stand inside a mnemonic or an operand. -/
def assemble (line : List Char) : Option Instr :=
  let text := ((line.takeWhile (· != ';')).dropWhile (· == ' '))
  let mnemonic := text.takeWhile mnemonicChar
  match text.dropWhile mnemonicChar with
  | ' ' :: rest =>
    (asmOperands rest).bind fun ops =>
      (asmCommand (String.ofList mnemonic) ops).bind fun i => if i.wellFormed then some i else none
  | _ => none

end Sys2Proof.Machine
end

