-- ==== Sys2Proof/Machine/HostNotation.lean ====
section
/-! DEFINITION. The host notation of 30_encoding.md R141 as the events it stands for: LOAD, a command, READ, ACK and the
polls of WAIT, and the window addresses they use (20_memory.md R84). -/

namespace Sys2Proof.Machine

/-- The byte address of word `j` of register `r` in the operand window (R84). -/
def windowAddr (w : Width) (r : Reg) (j : Nat) : Addr := BitVec.ofNat 16 (windowBase + r.val * w.bytes + 4 * j)

/-- `MemRead(a, 4)` (R17). -/
def memRead (a : Addr) : Input := .access (.read a .word)

/-- `MemWrite(a, 4, v)` (R17). -/
def memWrite (a : Addr) (v : Word) : Input := .access (.write a .word v)

/-- `LOAD rN, v`: `WORDS` window writes, here from the least significant word up (R141); R85 admits any order. -/
def loadOperand (w : Width) (r : Reg) (v : Nat) : List Input :=
  (List.range w.words).map fun j => memWrite (windowAddr w r j) (operandWord v j)

/-- `READ rN`: `WORDS` window reads (R141). -/
def readOperand (w : Width) (r : Reg) : List Input :=
  (List.range w.words).map fun j => memRead (windowAddr w r j)

/-- A command line of a host program: one write of its word to CMD (R141). -/
def issueCommand (i : Instr) : Input := memWrite 0x0010#16 (encode i)

/-- One poll of `WAIT`: a read of STATUS (R141). -/
def pollStatus : Input := memRead 0x000C#16

/-- A `WAIT` that polls `busyPolls` times before the engine completes, and once after (R141, R154; DESIGN CHOICE,
log 19). -/
def waitPolls (busyPolls : Nat) : List Input := List.replicate busyPolls pollStatus ++ [.engine, pollStatus]

/-- `ACK`: a STATUS write that clears DONE (R141). -/
def ackDone : Input := memWrite 0x000C#16 0x00000002#32

end Sys2Proof.Machine
end

