-- ==== Sys2Proof/Safety.lean ====
section
/-! DEFINITION. What a reachable state of `rsa_core` satisfies, in the terms the claims use: the invariant `State.Inv`, and the
interrupt and completion predicates read from the spec's prose. -/

namespace Sys2Proof.Machine

/-- The word selects MRTEST with random witnesses on `n = x[rn]` with `rounds` rounds (R241). -/
def isRandomTest (w : Word) : Prop := ∃ rd rn rounds, decode w = .command (.mrtestRandom rd rn rounds)

/-- The engine cannot go on without another random word: its command is MRTEST with WSRC = 0 and the words drawn so far
leave its verdict open (R154, R247). -/
def Flight.waitsOn (f : Flight) (words : List Word) : Prop :=
  ∃ rd rn rounds, decode f.cmd = .command (.mrtestRandom rd rn rounds) ∧
    mrtestRandomResult f.snap words rd rn rounds = .needWord

/-- What holds of a command in flight, of the state that holds it (R37, R40, R41, R87, R152). -/
structure State.InFlight (s : State) (f : Flight) : Prop where
  /-- CMD holds the word in flight (R34, R38) -/
  cmd_eq : f.cmd = s.cmd
  /-- "`snap` equals the bank throughout" (R152) -/
  snap_eq : f.snap = s.x
  /-- acceptance cleared the flags and nothing but a completion sets them (R37, R152) -/
  status_clear : s.status = { s.status with done := false, prime := false, xneg := false, yneg := false, errcode := .none }
  /-- acceptance cleared ERRINFO (R152) -/
  errinfo_clear : s.errinfo = ErrInfo.zero
  /-- `rnd_req` is 1 only while the engine waits for a word (R41, R101) -/
  request_waits : s.rndReq = true → f.waitsOn f.drawn
  /-- no word is drawn after the verdict is known, and only a random MRTEST draws one (R101, R247) -/
  drawn_needed : f.drawn ≠ [] → f.waitsOn f.drawn.dropLast

/-- What holds while the engine is idle (R37, R39, R40). -/
structure State.AtRest (s : State) : Prop where
  /-- no request is pending without a command (R41) -/
  no_request : s.rndReq = false
  /-- an error completion leaves PRIME, XNEG and YNEG 0 (R157) -/
  error_flags : s.status.errcode ≠ .none → s.status.prime = false ∧ s.status.xneg = false ∧ s.status.yneg = false
  /-- REASON is 0 exactly when there is no error (R271) -/
  reason_iff : s.errinfo.reason = .none ↔ s.status.errcode = .none
  /-- without an error REG is 0 (R39) -/
  no_error_reg : s.status.errcode = .none → s.errinfo.reg = 0
  /-- PRIME is set only by MRTEST, the last accepted command (R37) -/
  prime_source : s.status.prime = true →
    (∃ rd rn rounds, decode s.cmd = .command (.mrtestRandom rd rn rounds)) ∨
    (∃ rd rn rw rounds, decode s.cmd = .command (.mrtestRegs rd rn rw rounds))
  /-- XNEG and YNEG are set only by XGCD, the last accepted command (R37) -/
  sign_source : s.status.xneg = true ∨ s.status.yneg = true → ∃ rd ra rb, decode s.cmd = .command (.xgcd rd ra rb)

/-- The invariant of the machine: every step keeps it, and reset has it. -/
structure State.Inv (s : State) : Prop where
  /-- every operand register is an unsigned integer in `[0, 2^W)` (R30) -/
  bank_fits : s.x.fits s.width
  /-- nothing is staged between steps: completion stages and commits in one step (R165) -/
  nothing_staged : s.staged = none
  /-- what holds of the command in flight -/
  in_flight : ∀ f, s.engine = .running f → s.InFlight f
  /-- what holds with no command in flight -/
  at_rest : s.engine = .idle → s.AtRest

/-- A step that stops is the only unsafe end of a run: no host access, word, reset or engine step stops the block. -/
def State.Safe (s : State) : Prop := ∃ t, step s = .next t

end Sys2Proof.Machine
end

