-- ==== Sys2Proof/Certificates/Slice0/Obligations.lean ====
section
/-! DEFINITION. The statements for the provers. First the vocabulary they are written in, spelled out from the spec; then one
definition per statement, from the numbered rules. The statements speak of every state, hence of every operand width. -/

open Sys2Proof Sys2Proof.Machine

namespace Sys2Proof.Claims

/-- The state after a completion without error (40_command_cycle.md R165): the bank `x'`, DONE set, BUSY cleared (the engine
is IDLE), ERRCODE 0, the three flags as given, ERRINFO all zero but for `index`. Every field not named is as in `s`, so an
equation with this state is the command's frame as well. -/
def succeeded (s : State) (x' : Bank) (prime xneg yneg : Bool) (index : Nat) : State :=
  { s with
    x := x'
    status := { done := true, prime := prime, xneg := xneg, yneg := yneg, overrun := s.status.overrun,
                busyacc := s.status.busyacc, errcode := .none }
    errinfo := { reg := 0, reason := .none, index := BitVec.ofNat 10 index }
    engine := .idle
    staged := none
    rndReq := false }

/-- A completion without error that writes `v` to `rd` and sets no flag. -/
def wrote (s : State) (rd : Reg) (v : Nat) : State := succeeded s (s.x.set rd.val v) false false false 0

/-- The state after an error completion (R157, R276): ERRCODE and ERRINFO as given, DONE set, BUSY cleared, the flags 0,
the bank and everything else as in `s`. -/
def failed (s : State) (code : ErrCode) (reason : Reason) (reg index : Nat) : State :=
  { s with
    status := { done := true, prime := false, xneg := false, yneg := false, overrun := s.status.overrun,
                busyacc := s.status.busyacc, errcode := code }
    errinfo := { reg := Fin.ofNat 16 reg, reason := reason, index := BitVec.ofNat 10 index }
    engine := .idle
    staged := none
    rndReq := false }

/-- Element `i` of the register array based at `base`: register `base + i` (R123). -/
def elem (b : Bank) (base : Reg) (i : Nat) : Nat := b.toList.getD (base.val + i) 0

/-- The engine step of a word in flight that selects no command of opcode `opc`, a must-be-zero field being nonzero,
completes with ILLEGAL / RESERVED_FIELD and writes nothing (R126, R127, R157). -/
def RejectsField (opc : Nat) (nonzero : Word → Prop) : Prop :=
  ∀ (s : State) (f : Flight), s.engine = .running f → f.cmd.toNat / 2 ^ 27 = opc → nonzero f.cmd →
    s.engineStep = .next (failed s .illegal .reservedField 0 0)

/-- The bank registers a command may write (R126, R165). -/
def destinations : Instr → List Nat
  | .modmul rd _ _ _ => [rd.val]
  | .modpow rd _ _ _ => [rd.val]
  | .gcd rd _ _ => [rd.val]
  | .bgcd rd _ _ => [rd.val]
  | .xgcd rd _ _ => [rd.val, rd.val + 1, rd.val + 2]
  | .modinv rd _ _ => [rd.val]
  | .crt rd _ _ _ => [rd.val]
  | .mrtestRandom rd _ _ => [rd.val]
  | .mrtestRegs rd _ _ _ => [rd.val]
  | .bitlen rd _ => [rd.val]
  | .lsb rd _ => [rd.val]

/-- Witness `a` passes for `n` (R240): with `n - 1 = 2^s·d`, `d` odd, `a^d` is 1 modulo `n`, or one of `a^d` and its next
`s - 1` squarings is `n - 1`. -/
def Passes (n a : Nat) : Prop :=
  ∃ s d, n - 1 = 2 ^ s * d ∧ d % 2 = 1 ∧ (a ^ d % n = 1 ∨ ∃ r < max s 1, a ^ (2 ^ r * d) % n = n - 1)

/-- Words as one number, the first least significant (R247). -/
def wordsValue : List Word → Nat
  | [] => 0
  | w :: ws => w.toNat + 2 ^ 32 * wordsValue ws

/-- `bits = bitlen(n - 4)` of R247. -/
def drawBits (n : Nat) : Nat := if n = 4 then 1 else Nat.size (n - 4)

/-- One attempt of R247: `ceil(bits / 32)` words whose low `bits` bits are the value `v`. -/
def Attempt (n : Nat) (block : List Word) (v : Nat) : Prop :=
  block.length = (drawBits n + 31) / 32 ∧ v = wordsValue block % 2 ^ drawBits n

/-- The words of whole attempts that are all rejected: their value is above `n - 4` (R247). -/
inductive Rejected (n : Nat) : List Word → Prop where
  | nil : Rejected n []
  | cons {block rest : List Word} {v : Nat} (h : Attempt n block v) (hv : n - 4 < v) (hr : Rejected n rest) :
      Rejected n (block ++ rest)

/-- The words `ws` draw exactly the witnesses `as`, one after another: each after some rejected attempts, by an attempt
of value at most `n - 4` (R247). -/
inductive Draws (n : Nat) : List Word → List Nat → Prop where
  | nil : Draws n [] []
  | cons {before block rest : List Word} {v : Nat} {as : List Nat} (hb : Rejected n before) (h : Attempt n block v)
      (hv : v ≤ n - 4) (hr : Draws n rest as) : Draws n (before ++ block ++ rest) ((2 + v) :: as)

/-- The command in flight is MRTEST with random witnesses. -/
def RandomInFlight (f : Flight) : Prop := ∃ rd rn rounds, decode f.cmd = .command (.mrtestRandom rd rn rounds)

/-- The address is reserved in the map of R82: `0x0018`..`0x7FFF`, or past the operand window. -/
def ReservedAddr (w : Width) (a : Addr) : Prop :=
  (0x0018 ≤ a.toNat ∧ a.toNat < 0x8000) ∨ 0x8000 + 16 * (w.bits / 8) ≤ a.toNat

/-- The byte address of word `j` of register `r` (R84). -/
def wordAddr (w : Width) (r : Reg) (j : Nat) : Addr := BitVec.ofNat 16 (0x8000 + r.val * (w.bits / 8) + 4 * j)

/-- The 4-bit register field of a word whose lowest bit is bit `lo` (R121, R122). -/
def field (w : Word) (lo : Nat) : Reg := Fin.ofNat 16 (w.toNat / 2 ^ lo)

/-- The match and mask columns of R126, in table order. -/
def maskTable : List (Word × Word) :=
  [(0x08000000#32, 0xF80007FF#32), (0x10000000#32, 0xF80007FF#32), (0x18000000#32, 0xF8007FFF#32),
   (0x20000000#32, 0xF8007FFF#32), (0x28000000#32, 0xF8007FFF#32), (0x30000000#32, 0xF8007FFF#32),
   (0x38000000#32, 0xF8007FF0#32), (0x40000000#32, 0xF807FC00#32), (0x40000400#32, 0xF8007C00#32),
   (0x48000000#32, 0xF807FFFF#32), (0x50000000#32, 0xF807FFFF#32)]

/-- The values of R43, seen through the registers the host reads, the hidden state (an IDLE engine has no `cmd` and no `snap`), the
random-word port and the interrupt output. -/
structure HasResetValues (t : State) : Prop where
  bank : ∀ r : Reg, t.x.get r = 0
  id : t.readTarget .id = 0x52534331#32
  param : (t.readTarget .param).toNat = 8 * 2 ^ 24 + 16 * 2 ^ 16 + t.width.bits / 32
  ctrl : t.readTarget .ctrl = 0
  status : t.readTarget .status = 0
  cmd : t.readTarget .cmd = 0
  errinfo : t.readTarget .errinfo = 0
  phase : t.engine = .idle
  staged : t.staged = none
  rnd_req : t.rndReq = false
  irq : t.irq = false

/-- The next event of `s` is `e`, and `rest` comes after it. -/
def Next (s : State) (e : Input) (rest : List Input) : Prop := s.inputs = e :: rest

/-- The engine moves in the next step: its event is next, or no event is listed (log 2). -/
def EngineMoves (s : State) : Prop := s.inputs = [] ∨ ∃ rest, s.inputs = .engine :: rest

end Sys2Proof.Claims

open Sys2Proof.Claims

/-! ### Reset -/

/-- R43: every state the `rst` input leads to, from any state, a command in flight included, holds the values of R43, its width
being the instance's; so do the model's reset states of every width. -/
def Obligations.ResetLeavesTheListedValues : Prop :=
  (∀ (s : State) (rest : List Input), Next s .reset rest → ∃ t, step s = .next t ∧ t.width = s.width ∧ HasResetValues t) ∧
  (∀ w : Width, HasResetValues (State.resetAt w)) ∧ HasResetValues State.reset

/-- R300: the `rst` input in any state, a command in flight included, is one step to the reset state of the same width. That the
coming events stay and the last response is cleared is the model's choice (log 2, log 4). -/
def Obligations.ResetInputIsOneStepToReset : Prop :=
  ∀ (s : State) (rest : List Input), Next s .reset rest →
    step s = .next { State.resetAt s.width with inputs := rest }

/-- The reset state of every width has the invariant. -/
def Obligations.ResetStateHasTheInvariant : Prop :=
  (∀ w : Width, (State.resetAt w).Inv) ∧ State.reset.Inv

/-! ### Whole-machine invariants -/

/-- The invariant of `Safety.lean` (registers in range, snapshot equal to the bank, flags clear while RUNNING, words drawn
only when needed, flag sources) is kept by every step from every state that has it, whatever event comes next. -/
def Obligations.EveryStepKeepsTheInvariant : Prop :=
  ∀ s t : State, s.Inv → step s = .next t → t.Inv

/-- From a state with the invariant no step stops: the checks S10 (XGCD magnitude) and S11 (inverse outside `[0, m)`) never
fail, because of the coefficient bound of R207. -/
def Obligations.NoStepFromTheInvariantStops : Prop :=
  ∀ s : State, s.Inv → ∃ t, step s = .next t

/-! ### Encoding -/

/-- Decoding the word of a well-formed command gives the command back, with every operand at every value. -/
def Obligations.EncodedCommandsDecodeBack : Prop :=
  ∀ i : Instr, i.wellFormed = true → decode (encode i) = .command i

/-- Each command word has one meaning: a word that decodes to a command is that command's own encoding. -/
def Obligations.DecodedWordsAreTheirEncodings : Prop :=
  ∀ (w : Word) (i : Instr), decode w = .command i → i.wellFormed = true ∧ encode i = w

/-- R142: the listed words, each written out, are the encodings of the listed commands, decode to them, and are what
the assembler makes of the listed lines. -/
def Obligations.ListedExamplesHaveTheirWords : Prop :=
  ∀ p ∈ ([("MODMUL r3, r0, r1, r2", .modmul 3 0 1 2, 0x09809000#32),
      ("MODPOW r4, r0, r1, r2", .modpow 4 0 1 2, 0x12009000#32),
      ("GCD r2, r0, r1", .gcd 2 0 1, 0x19008000#32),
      ("BGCD r2, r0, r1", .bgcd 2 0 1, 0x21008000#32),
      ("XGCD r5, r0, r1", .xgcd 5 0 1, 0x2A808000#32),
      ("MODINV r2, r0, r1", .modinv 2 0 1, 0x31008000#32),
      ("CRT r9, r4, r6, #2", .crt 9 4 6 2, 0x3CA30002#32),
      ("MRTEST r1, r0, #40", .mrtestRandom 1 0 40, 0x40800028#32),
      ("MRTEST r1, r0, r2, #3", .mrtestRegs 1 0 2 3, 0x40810403#32),
      ("BITLEN r1, r0", .bitlen 1 0, 0x48800000#32),
      ("LSB r1, r0", .lsb 1 0, 0x50800000#32)] : List (String × Instr × Word)),
    encode p.2.1 = p.2.2 ∧ decode p.2.2 = .command p.2.1 ∧ assemble p.1.toList = some p.2.1

/-- R127 with R126 and R122: decoding is total, each row's mask and match select its command, whose operands are the fields of
R122 read from the word's number, and a word no row selects is ILLEGAL by its opcode; no two rows overlap; and an ILLEGAL word in
flight completes with ERRCODE ILLEGAL and its reason, and writes no register (R157, R272). -/
def Obligations.DecodeReadsTheFieldsOfEachRow : Prop :=
  (∀ w : Word,
    (w &&& 0xF80007FF#32 = 0x08000000#32 → decode w = .command (.modmul (field w 23) (field w 19) (field w 15) (field w 11))) ∧
    (w &&& 0xF80007FF#32 = 0x10000000#32 → decode w = .command (.modpow (field w 23) (field w 19) (field w 15) (field w 11))) ∧
    (w &&& 0xF8007FFF#32 = 0x18000000#32 → decode w = .command (.gcd (field w 23) (field w 19) (field w 15))) ∧
    (w &&& 0xF8007FFF#32 = 0x20000000#32 → decode w = .command (.bgcd (field w 23) (field w 19) (field w 15))) ∧
    (w &&& 0xF8007FFF#32 = 0x28000000#32 → decode w = .command (.xgcd (field w 23) (field w 19) (field w 15))) ∧
    (w &&& 0xF8007FFF#32 = 0x30000000#32 → decode w = .command (.modinv (field w 23) (field w 19) (field w 15))) ∧
    (w &&& 0xF8007FF0#32 = 0x38000000#32 →
      decode w = .command (.crt (field w 23) (field w 19) (field w 15) (w.toNat % 16))) ∧
    (w &&& 0xF807FC00#32 = 0x40000000#32 → decode w = .command (.mrtestRandom (field w 23) (field w 19) (w.toNat % 1024))) ∧
    (w &&& 0xF8007C00#32 = 0x40000400#32 →
      decode w = .command (.mrtestRegs (field w 23) (field w 19) (field w 15) (w.toNat % 1024))) ∧
    (w &&& 0xF807FFFF#32 = 0x48000000#32 → decode w = .command (.bitlen (field w 23) (field w 19))) ∧
    (w &&& 0xF807FFFF#32 = 0x50000000#32 → decode w = .command (.lsb (field w 23) (field w 19))) ∧
    ((∀ r ∈ maskTable, w &&& r.2 ≠ r.1) →
      decode w = .illegal (if w.toNat / 2 ^ 27 = 0x00 ∨ 0x0B ≤ w.toNat / 2 ^ 27 then .reservedOpcode else .reservedField))) ∧
  (maskTable.Pairwise fun a b => ∀ w : Word, ¬ (w &&& a.2 = a.1 ∧ w &&& b.2 = b.1)) ∧
  (∀ (s : State) (f : Flight), s.engine = .running f →
    (decode f.cmd = .illegal .reservedOpcode → s.engineStep = .next (failed s .illegal .reservedOpcode 0 0)) ∧
    (decode f.cmd = .illegal .reservedField → s.engineStep = .next (failed s .illegal .reservedField 0 0)))

/-- R140: each pseudo-instruction, as the assembler reads it, is the command it expands to. -/
def Obligations.PseudoInstructionsAreTheirExpansions : Prop :=
  ∀ rd rs rx rm rn : Reg,
    asmCommand "SQRMOD" [.reg rd, .reg rs, .reg rm] = asmCommand "MODMUL" [.reg rd, .reg rs, .reg rs, .reg rm] ∧
    asmCommand "CRT2" [.reg rd, .reg rx, .reg rm] = asmCommand "CRT" [.reg rd, .reg rx, .reg rm, .count 2] ∧
    asmCommand "ISPRIME" [.reg rd, .reg rn] = asmCommand "MRTEST" [.reg rd, .reg rn, .count 40] ∧
    asmCommand "SQRMOD" [.reg rd, .reg rs, .reg rm] = some (.modmul rd rs rs rm) ∧
    asmCommand "CRT2" [.reg rd, .reg rx, .reg rm] = some (.crt rd rx rm 2) ∧
    asmCommand "ISPRIME" [.reg rd, .reg rn] = some (.mrtestRandom rd rn 40)

/-- The decoder's rows have the match and mask values of R126 in table order, a row selects a word exactly when `(cmd AND mask) =
match`, and no word is selected by two rows (R127). -/
def Obligations.EncodingRowsDoNotOverlap : Prop :=
  (encodingRows.map fun r => (r.pattern, r.mask)) = maskTable ∧
  (∀ r ∈ encodingRows, ∀ w : Word, r.selects w = true ↔ w &&& r.mask = r.pattern) ∧
  encodingRows.Pairwise fun a b => ∀ w : Word, ¬ (a.selects w = true ∧ b.selects w = true)

/-- R128: a word whose opcode is `0x00` or `0x0B`..`0x1F`, accepted and in flight, completes with ILLEGAL / RESERVED_OPCODE
and has no other effect; and only such a word is rejected for its opcode. -/
def Obligations.ReservedOpcodesCompleteIllegal : Prop :=
  (∀ (s : State) (f : Flight), s.engine = .running f → f.cmd.toNat / 2 ^ 27 ∉ Set.Icc 0x01 0x0A →
    s.engineStep = .next (failed s .illegal .reservedOpcode 0 0)) ∧
  (∀ w : Word, decode w = .illegal .reservedOpcode ↔ w.toNat / 2 ^ 27 = 0x00 ∨ 0x0B ≤ w.toNat / 2 ^ 27)

/-- R126, R127: for each opcode, a word whose must-be-zero field is not zero completes with ILLEGAL / RESERVED_FIELD. -/
def Obligations.NonzeroReservedFieldsCompleteIllegal : Prop :=
  (∀ opc ∈ [0x01, 0x02], RejectsField opc fun w => w.extractLsb' 0 11 ≠ 0) ∧
  (∀ opc ∈ [0x03, 0x04, 0x05, 0x06], RejectsField opc fun w => w.extractLsb' 0 15 ≠ 0) ∧
  RejectsField 0x07 (fun w => w.extractLsb' 4 11 ≠ 0) ∧
  RejectsField 0x08 (fun w => w.extractLsb' 11 4 ≠ 0 ∨ (w.getLsbD 10 = false ∧ w.extractLsb' 15 4 ≠ 0)) ∧
  (∀ opc ∈ [0x09, 0x0A], RejectsField opc fun w => w.extractLsb' 0 19 ≠ 0)

/-- The step runs the decoded command: when the word in flight decodes to `i` and the engine moves, the step is `exec i` at
the state whose event list has lost the engine's event; a word that decodes to no command never reaches `exec`. Two
clauses are the model's choice (log 2, DESIGN CHOICE) and no rule of the spec: that the engine moves when no event is listed
(the second case of `EngineMoves`), and that an idle engine's move leaves the state as it is. -/
def Obligations.StepRunsTheDecodedCommand : Prop :=
  ∀ s : State, EngineMoves s →
    (∀ f i, s.engine = .running f → decode f.cmd = .command i →
      step s = exec i { s with inputs := s.inputs.tail }) ∧
    (∀ f why, s.engine = .running f → decode f.cmd = .illegal why →
      ∃ t, step s = .next t ∧ t.status.errcode = .illegal ∧ t.engine = .idle ∧ t.x = s.x) ∧
    (s.engine = .idle → step s = .next { s with inputs := s.inputs.tail })

/-! ### The commands -/

/-- R181. MODMUL answers `(a·b) mod m` with the product exact, or ZERO_OPERAND for `m = 0`; IMM ≠ 0 is ILLEGAL. -/
def Obligations.ModmulCompletes : Prop :=
  (∀ (s : State) (f : Flight) (rd ra rb rm : Reg), s.engine = .running f →
    exec (.modmul rd ra rb rm) s = .next
      (if f.snap.get rm = 0 then failed s .invalidInput .zeroOperand rm 0
       else wrote s rd (f.snap.get ra * f.snap.get rb % f.snap.get rm))) ∧
  RejectsField 0x01 fun w => w.extractLsb' 0 11 ≠ 0

/-- R191. MODPOW answers `n^e mod m` (`1 mod m` for `e = 0`), or ZERO_OPERAND for `m = 0`; IMM ≠ 0 is ILLEGAL. -/
def Obligations.ModpowCompletes : Prop :=
  (∀ (s : State) (f : Flight) (rd rn re rm : Reg), s.engine = .running f →
    exec (.modpow rd rn re rm) s = .next
      (if f.snap.get rm = 0 then failed s .invalidInput .zeroOperand rm 0
       else wrote s rd (f.snap.get rn ^ f.snap.get re % f.snap.get rm))) ∧
  RejectsField 0x02 fun w => w.extractLsb' 0 11 ≠ 0

/-- R201. GCD answers the greatest common divisor, `gcd(a, 0) = a`, or ZERO_OPERAND for `a = 0`. -/
def Obligations.GcdCompletes : Prop :=
  (∀ (s : State) (f : Flight) (rd ra rb : Reg), s.engine = .running f →
    exec (.gcd rd ra rb) s = .next
      (if f.snap.get ra = 0 then failed s .invalidInput .zeroOperand ra 0
       else wrote s rd (Nat.gcd (f.snap.get ra) (f.snap.get rb)))) ∧
  RejectsField 0x03 fun w => w.extractLsb' 0 15 ≠ 0

/-- R203, R204. BGCD answers `gcd(a, b)`, the same value as GCD on every input, and the same errors. -/
def Obligations.BgcdCompletesAsGcdDoes : Prop :=
  (∀ (s : State) (f : Flight) (rd ra rb : Reg), s.engine = .running f →
    exec (.bgcd rd ra rb) s = .next
      (if f.snap.get ra = 0 then failed s .invalidInput .zeroOperand ra 0
       else wrote s rd (Nat.gcd (f.snap.get ra) (f.snap.get rb))) ∧
    exec (.bgcd rd ra rb) s = exec (.gcd rd ra rb) s) ∧
  RejectsField 0x04 fun w => w.extractLsb' 0 15 ≠ 0

/-- R205, R207, R208. XGCD on operands in range answers `g`, `|x|`, `|y|` in RD, RD+1, RD+2 and the signs in XNEG, YNEG, where
`(x, y)` are the textbook coefficients (Mathlib's `Nat.xgcd`, its two rows exchanged), `a·x + b·y = g = gcd(a, b)`, `|x| ≤ b/g` and
`|y| ≤ a/g`, and GCD gives the same `g`; RD > 13, `a = 0` and `b = 0` are rejected in that order. -/
def Obligations.XgcdCompletes : Prop :=
  (∀ (s : State) (f : Flight) (rd ra rb : Reg), s.engine = .running f → f.snap.fits s.width →
    (13 < rd.val → exec (.xgcd rd ra rb) s = .next (failed s .invalidInput .regRange rd 0)) ∧
    (rd.val ≤ 13 → f.snap.get ra = 0 → exec (.xgcd rd ra rb) s = .next (failed s .invalidInput .zeroOperand ra 0)) ∧
    (rd.val ≤ 13 → f.snap.get ra ≠ 0 → f.snap.get rb = 0 →
      exec (.xgcd rd ra rb) s = .next (failed s .invalidInput .zeroOperand rb 0)) ∧
    (∀ h : rd.val ≤ 13, f.snap.get ra ≠ 0 → f.snap.get rb ≠ 0 →
      ∃ x y : Int, x = Nat.gcdB (f.snap.get rb) (f.snap.get ra) ∧ y = Nat.gcdA (f.snap.get rb) (f.snap.get ra) ∧
        (f.snap.get ra : Int) * x + f.snap.get rb * y = Nat.gcd (f.snap.get ra) (f.snap.get rb) ∧
        x.natAbs ≤ f.snap.get rb / Nat.gcd (f.snap.get ra) (f.snap.get rb) ∧
        y.natAbs ≤ f.snap.get ra / Nat.gcd (f.snap.get ra) (f.snap.get rb) ∧
        exec (.xgcd rd ra rb) s = .next
          (succeeded s
            (((s.x.set rd.val (Nat.gcd (f.snap.get ra) (f.snap.get rb))).set (rd.val + 1) x.natAbs).set (rd.val + 2)
              y.natAbs)
            false (decide (x < 0)) (decide (y < 0)) 0) ∧
        exec (.gcd rd ra rb) s = .next (wrote s rd (Nat.gcd (f.snap.get ra) (f.snap.get rb))))) ∧
  RejectsField 0x05 fun w => w.extractLsb' 0 15 ≠ 0

/-- R221, R222. MODINV on coprime operands answers the `u` in `[0, m)` with `n·u ≡ 1 (mod m)`, which is unique; on operands
that are not coprime it completes with NO_INVERSE / NOT_COPRIME / REG = RS1 and writes nothing; `n = 0`, then `m = 0`, is rejected. -/
def Obligations.ModinvCompletes : Prop :=
  (∀ (s : State) (f : Flight) (rd rn rm : Reg), s.engine = .running f →
    (f.snap.get rn = 0 → exec (.modinv rd rn rm) s = .next (failed s .invalidInput .zeroOperand rn 0)) ∧
    (f.snap.get rn ≠ 0 → f.snap.get rm = 0 →
      exec (.modinv rd rn rm) s = .next (failed s .invalidInput .zeroOperand rm 0)) ∧
    (f.snap.get rn ≠ 0 → f.snap.get rm ≠ 0 → Nat.gcd (f.snap.get rn) (f.snap.get rm) ≠ 1 →
      exec (.modinv rd rn rm) s = .next (failed s .noInverse .notCoprime rn 0)) ∧
    (f.snap.get rn ≠ 0 → f.snap.get rm ≠ 0 → Nat.gcd (f.snap.get rn) (f.snap.get rm) = 1 →
      ∃ u, (u < f.snap.get rm ∧ f.snap.get rn * u % f.snap.get rm = 1 % f.snap.get rm) ∧
        (∀ v, v < f.snap.get rm ∧ f.snap.get rn * v % f.snap.get rm = 1 % f.snap.get rm → v = u) ∧
        exec (.modinv rd rn rm) s = .next (wrote s rd u))) ∧
  RejectsField 0x06 fun w => w.extractLsb' 0 15 ≠ 0

/-- R231, R234. CRT with an admitted count, arrays inside the bank, nonzero pairwise coprime moduli and a product `M` below
`2^W` answers the `v` in `[0, M)` with `v ≡ x_i (mod m_i)` for every `i`, which is unique. -/
def Obligations.CrtReconstructs : Prop :=
  ∀ (s : State) (f : Flight) (rd rx rm : Reg) (k : Nat), s.engine = .running f →
    1 ≤ k → k ≤ 8 → rx.val + k - 1 ≤ 15 → rm.val + k - 1 ≤ 15 →
    (∀ i < k, elem f.snap rm i ≠ 0) →
    (∏ i ∈ Finset.range k, elem f.snap rm i) < 2 ^ s.width.bits →
    (∀ i < k, ∀ j < k, i ≠ j → Nat.Coprime (elem f.snap rm i) (elem f.snap rm j)) →
    ∃ v, (v < ∏ i ∈ Finset.range k, elem f.snap rm i) ∧
      (∀ i < k, v % elem f.snap rm i = elem f.snap rx i % elem f.snap rm i) ∧
      (∀ u < ∏ i ∈ Finset.range k, elem f.snap rm i,
        (∀ i < k, u % elem f.snap rm i = elem f.snap rx i % elem f.snap rm i) → u = v) ∧
      exec (.crt rd rx rm k) s = .next (wrote s rd v)

/-- R233. CRT with moduli that are not pairwise coprime, everything else admitted, completes with NO_INVERSE / NOT_COPRIME at the
smallest `i` whose modulus shares a factor with another, REG = RS2 + i, and writes nothing. -/
def Obligations.CrtReportsModuliThatAreNotCoprime : Prop :=
  ∀ (s : State) (f : Flight) (rd rx rm : Reg) (k i : Nat), s.engine = .running f →
    1 ≤ k → k ≤ 8 → rx.val + k - 1 ≤ 15 → rm.val + k - 1 ≤ 15 →
    (∀ j < k, elem f.snap rm j ≠ 0) →
    (∏ j ∈ Finset.range k, elem f.snap rm j) < 2 ^ s.width.bits →
    i < k → (∃ j < k, j ≠ i ∧ ¬ Nat.Coprime (elem f.snap rm i) (elem f.snap rm j)) →
    (∀ i' < i, ∀ j < k, j ≠ i' → Nat.Coprime (elem f.snap rm i') (elem f.snap rm j)) →
    exec (.crt rd rx rm k) s = .next (failed s .noInverse .notCoprime (rm.val + i) i)

/-- R156, R231, R232. What CRT rejects, in order: the count, the residue array, the modulus array, the first zero modulus, the
first prefix product that reaches `2^W`; and a nonzero `IMM[10:4]` or RS3. -/
def Obligations.CrtRejectsInOrder : Prop :=
  (∀ (s : State) (f : Flight) (rd rx rm : Reg) (k : Nat), s.engine = .running f →
    (k = 0 ∨ 8 < k → exec (.crt rd rx rm k) s = .next (failed s .invalidInput .count 0 0)) ∧
    (1 ≤ k → k ≤ 8 → 15 < rx.val + k - 1 → exec (.crt rd rx rm k) s = .next (failed s .invalidInput .regRange rx 0)) ∧
    (1 ≤ k → k ≤ 8 → rx.val + k - 1 ≤ 15 → 15 < rm.val + k - 1 →
      exec (.crt rd rx rm k) s = .next (failed s .invalidInput .regRange rm 0)) ∧
    (1 ≤ k → k ≤ 8 → rx.val + k - 1 ≤ 15 → rm.val + k - 1 ≤ 15 →
      (∀ i < k, elem f.snap rm i = 0 → (∀ j < i, elem f.snap rm j ≠ 0) →
        exec (.crt rd rx rm k) s = .next (failed s .invalidInput .zeroOperand (rm.val + i) i)) ∧
      ((∀ j < k, elem f.snap rm j ≠ 0) → ∀ i < k,
        2 ^ s.width.bits ≤ ∏ j ∈ Finset.range (i + 1), elem f.snap rm j →
        (∏ j ∈ Finset.range i, elem f.snap rm j) < 2 ^ s.width.bits →
        exec (.crt rd rx rm k) s = .next (failed s .invalidInput .capacity (rm.val + i) i)))) ∧
  RejectsField 0x07 fun w => w.extractLsb' 4 11 ≠ 0

/-- R242, R243, R246. MRTEST with witness registers: 1 is composite, 2 and 3 are prime, and for `n ≥ 4` with every witness in
`[2, n-2]` the verdict is 1 exactly when every witness passes; a composite verdict reports the first round that fails. -/
def Obligations.MrtestWithWitnessesCompletes : Prop :=
  ∀ (s : State) (f : Flight) (rd rn rw : Reg) (rounds : Nat), s.engine = .running f →
    1 ≤ rounds → rw.val + rounds - 1 ≤ 15 →
    (f.snap.get rn = 1 → exec (.mrtestRegs rd rn rw rounds) s = .next (wrote s rd 0)) ∧
    (f.snap.get rn = 2 ∨ f.snap.get rn = 3 →
      exec (.mrtestRegs rd rn rw rounds) s = .next (succeeded s (s.x.set rd.val 1) true false false 0)) ∧
    (4 ≤ f.snap.get rn → (∀ i < rounds, 2 ≤ elem f.snap rw i ∧ elem f.snap rw i ≤ f.snap.get rn - 2) →
      ((∀ i < rounds, Passes (f.snap.get rn) (elem f.snap rw i)) →
        exec (.mrtestRegs rd rn rw rounds) s = .next (succeeded s (s.x.set rd.val 1) true false false 0)) ∧
      (∀ i < rounds, (∀ j < i, Passes (f.snap.get rn) (elem f.snap rw j)) → ¬ Passes (f.snap.get rn) (elem f.snap rw i) →
        exec (.mrtestRegs rd rn rw rounds) s = .next (succeeded s (s.x.set rd.val 0) false false false i)))

/-- R242, R245. What MRTEST rejects, in order, in both modes: the count, the witness array, `n = 0`, the first witness outside
`[2, n-2]` (before any round is run); and the must-be-zero fields. -/
def Obligations.MrtestRejectsInOrder : Prop :=
  (∀ (s : State) (f : Flight) (rd rn rw : Reg) (rounds : Nat), s.engine = .running f →
    (exec (.mrtestRegs rd rn rw 0) s = .next (failed s .invalidInput .count 0 0)) ∧
    (exec (.mrtestRandom rd rn 0) s = .next (failed s .invalidInput .count 0 0)) ∧
    (1 ≤ rounds → rounds ≤ 1023 →
      (15 < rw.val + rounds - 1 → exec (.mrtestRegs rd rn rw rounds) s = .next (failed s .invalidInput .regRange rw 0)) ∧
      (f.snap.get rn = 0 → exec (.mrtestRandom rd rn rounds) s = .next (failed s .invalidInput .zeroOperand rn 0)) ∧
      (rw.val + rounds - 1 ≤ 15 →
        (f.snap.get rn = 0 → exec (.mrtestRegs rd rn rw rounds) s = .next (failed s .invalidInput .zeroOperand rn 0)) ∧
        (4 ≤ f.snap.get rn → ∀ i < rounds, (elem f.snap rw i < 2 ∨ f.snap.get rn - 2 < elem f.snap rw i) →
          (∀ j < i, 2 ≤ elem f.snap rw j ∧ elem f.snap rw j ≤ f.snap.get rn - 2) →
          exec (.mrtestRegs rd rn rw rounds) s = .next (failed s .invalidInput .outOfRange (rw.val + i) i))))) ∧
  RejectsField 0x08 (fun w => w.extractLsb' 11 4 ≠ 0 ∨ (w.getLsbD 10 = false ∧ w.extractLsb' 15 4 ≠ 0))

/-- R242, R243, R247. MRTEST with random witnesses completes as soon as the words drawn decide it: at once for `n ≤ 3`; for
`n ≥ 4`, with verdict 1 when they draw `rounds` witnesses that pass, and with verdict 0 at the first round that fails. -/
def Obligations.MrtestWithRandomWordsCompletes : Prop :=
  ∀ (s : State) (f : Flight) (rd rn : Reg) (rounds : Nat), s.engine = .running f → 1 ≤ rounds → rounds ≤ 1023 →
    (f.snap.get rn = 1 → exec (.mrtestRandom rd rn rounds) s = .next (wrote s rd 0)) ∧
    (f.snap.get rn = 2 ∨ f.snap.get rn = 3 →
      exec (.mrtestRandom rd rn rounds) s = .next (succeeded s (s.x.set rd.val 1) true false false 0)) ∧
    (∀ as : List Nat, 4 ≤ f.snap.get rn → Draws (f.snap.get rn) f.drawn as →
      (as.length = rounds → (∀ a ∈ as, Passes (f.snap.get rn) a) →
        exec (.mrtestRandom rd rn rounds) s = .next (succeeded s (s.x.set rd.val 1) true false false 0)) ∧
      (∀ (pre : List Nat) (a : Nat), as = pre ++ [a] → pre.length < rounds → (∀ b ∈ pre, Passes (f.snap.get rn) b) →
        ¬ Passes (f.snap.get rn) a →
        exec (.mrtestRandom rd rn rounds) s = .next (succeeded s (s.x.set rd.val 0) false false false pre.length)))

/-- R100, R247, R312. While the words drawn leave the verdict open (fewer than `rounds` witnesses, all passing, then rejected
attempts and part of one), the engine step only holds `rnd_req` at 1: BUSY stays 1, and nothing else changes. -/
def Obligations.MrtestWaitsForTheNextWord : Prop :=
  ∀ (s : State) (f : Flight) (rd rn : Reg) (rounds : Nat) (used tail part : List Word) (as : List Nat),
    s.engine = .running f → rounds ≤ 1023 → 4 ≤ f.snap.get rn →
    f.drawn = used ++ (tail ++ part) → Draws (f.snap.get rn) used as → as.length < rounds →
    (∀ a ∈ as, Passes (f.snap.get rn) a) → Rejected (f.snap.get rn) tail →
    part.length < (drawBits (f.snap.get rn) + 31) / 32 →
    exec (.mrtestRandom rd rn rounds) s = .next { s with rndReq := true }

/-- R249: a prime is never reported composite. With witness registers the verdict is 1 for every choice of witnesses; with
random words every engine step either completes with verdict 1 or waits for another word. -/
def Obligations.PrimesAreNeverReportedComposite : Prop :=
  ∀ (s : State) (f : Flight) (rd rn rw : Reg) (rounds : Nat), s.engine = .running f → 1 ≤ rounds → rounds ≤ 1023 →
    Nat.Prime (f.snap.get rn) →
    (rw.val + rounds - 1 ≤ 15 →
      (4 ≤ f.snap.get rn → ∀ i < rounds, 2 ≤ elem f.snap rw i ∧ elem f.snap rw i ≤ f.snap.get rn - 2) →
      exec (.mrtestRegs rd rn rw rounds) s = .next (succeeded s (s.x.set rd.val 1) true false false 0)) ∧
    (exec (.mrtestRandom rd rn rounds) s = .next (succeeded s (s.x.set rd.val 1) true false false 0) ∨
      exec (.mrtestRandom rd rn rounds) s = .next { s with rndReq := true })

/-- R261. BITLEN answers 1 for 0, and otherwise the `k` with `2^(k-1) ≤ n < 2^k`; no operand is rejected. -/
def Obligations.BitlenCompletes : Prop :=
  (∀ (s : State) (f : Flight) (rd rn : Reg), s.engine = .running f →
    (f.snap.get rn = 0 → exec (.bitlen rd rn) s = .next (wrote s rd 1)) ∧
    (∀ k, 1 ≤ k → 2 ^ (k - 1) ≤ f.snap.get rn → f.snap.get rn < 2 ^ k → exec (.bitlen rd rn) s = .next (wrote s rd k)) ∧
    (∃ k, exec (.bitlen rd rn) s = .next (wrote s rd k))) ∧
  RejectsField 0x09 fun w => w.extractLsb' 0 19 ≠ 0

/-- R263. LSB answers the `s` with `n = 2^s·d`, `d` odd, or ZERO_OPERAND for `n = 0`. -/
def Obligations.LsbCompletes : Prop :=
  (∀ (s : State) (f : Flight) (rd rn : Reg), s.engine = .running f →
    (f.snap.get rn = 0 → exec (.lsb rd rn) s = .next (failed s .invalidInput .zeroOperand rn 0)) ∧
    (∀ k d, f.snap.get rn = 2 ^ k * d → d % 2 = 1 → exec (.lsb rd rn) s = .next (wrote s rd k))) ∧
  RejectsField 0x0A fun w => w.extractLsb' 0 19 ≠ 0

/-! ### What every command does and does not do -/

/-- The frame of every command (R165, R157, R166): registers other than its destinations, CTRL, CMD, the sticky flags, the
width, the last response and the coming events are unchanged by its engine step. -/
def Obligations.CommandsWriteOnlyTheirDestinations : Prop :=
  ∀ (i : Instr) (s t : State), exec i s = .next t →
    (∀ r : Reg, r.val ∉ destinations i → t.x.get r = s.x.get r) ∧
    t.ie = s.ie ∧ t.cmd = s.cmd ∧ t.width = s.width ∧ t.resp = s.resp ∧ t.inputs = s.inputs ∧
    t.status.overrun = s.status.overrun ∧ t.status.busyacc = s.status.busyacc

/-- R157, R276: errors are precise. Whatever word is in flight, if its engine step leaves an error code, then the step changed
only STATUS, ERRINFO and the engine: the bank is as before, DONE is 1, BUSY, PRIME, XNEG and YNEG are 0. -/
def Obligations.ErrorsArePrecise : Prop :=
  ∀ (s t : State) (f : Flight), s.engine = .running f → s.status.errcode = .none → s.engineStep = .next t →
    t.status.errcode ≠ .none →
    t = failed s t.status.errcode t.errinfo.reason t.errinfo.reg t.errinfo.index.toNat

/-- R154: from a state with the invariant, the engine step of any word in flight other than a random MRTEST completes it. -/
def Obligations.EveryOtherCommandCompletesInOneEngineStep : Prop :=
  ∀ (s : State) (f : Flight), s.Inv → s.engine = .running f → ¬ RandomInFlight f → EngineMoves s →
    ∃ t, step s = .next t ∧ t.engine = .idle ∧ t.busy = false ∧ t.status.done = true

/-- R155: what a command computes depends on the word, the snapshot and the random words alone. Two states of one width that
agree on the engine and the bank complete together with the same bank, flags, error and ERRINFO, whatever else differs. -/
def Obligations.ResultsDependOnTheSnapshotAlone : Prop :=
  ∀ (s₁ s₂ t₁ : State), s₁.width = s₂.width → s₁.engine = s₂.engine → s₁.x = s₂.x → s₁.engineStep = .next t₁ →
    ∃ t₂, s₂.engineStep = .next t₂ ∧ t₁.x = t₂.x ∧ t₁.engine = t₂.engine ∧
      (s₁.busy = true → t₁.engine = .idle →
        t₁.errinfo = t₂.errinfo ∧ t₁.status.errcode = t₂.status.errcode ∧ t₁.status.prime = t₂.status.prime ∧
        t₁.status.xneg = t₂.status.xneg ∧ t₁.status.yneg = t₂.status.yneg)

/-- R101: only a random MRTEST asks for a word; after an engine step with `rnd_req = 1` the word in flight is one. -/
def Obligations.OnlyRandomTestsRequestWords : Prop :=
  ∀ (s t : State) (f : Flight), s.engine = .running f → s.engineStep = .next t → t.rndReq = true →
    RandomInFlight f ∧ t.engine = s.engine

/-! ### The host port -/

/-- R81, R273: an access that is not an aligned 32-bit one gets a bus error and changes no state of the block. -/
def Obligations.BusErrorsHaveNoEffect : Prop :=
  ∀ (s : State) (rest : List Input) (a : Addr) (size : Size) (v : Word), size ≠ .word ∨ a.toNat % 4 ≠ 0 →
    (Next s (.access (.read a size)) rest → step s = .next { s with inputs := rest, resp := some .busError }) ∧
    (Next s (.access (.write a size v)) rest → step s = .next { s with inputs := rest, resp := some .busError })

/-- R83: an aligned word read of a reserved address returns 0, a write is ignored, and neither does anything else. -/
def Obligations.ReservedAddressesReadZeroAndIgnoreWrites : Prop :=
  ∀ (s : State) (rest : List Input) (a : Addr) (v : Word), ReservedAddr s.width a → a.toNat % 4 = 0 →
    (Next s (.access (.read a .word)) rest → step s = .next { s with inputs := rest, resp := some (.data 0) }) ∧
    (Next s (.access (.write a .word v)) rest → step s = .next { s with inputs := rest, resp := some .ack })

/-- R84, R85: while BUSY = 0, a window read returns bits `[32j+31 : 32j]` of its register and changes nothing, and a window write
replaces exactly those bits of that register. -/
def Obligations.WindowAccessesWordsWhileIdle : Prop :=
  ∀ (s : State) (rest : List Input) (r : Reg) (j : Nat) (v : Word), s.engine = .idle → j < s.width.bits / 32 →
    (Next s (.access (.read (wordAddr s.width r j) .word)) rest →
      ∃ d : Word, (∀ i < 32, d.getLsbD i = (s.x.get r).testBit (32 * j + i)) ∧
        step s = .next { s with inputs := rest, resp := some (.data d) }) ∧
    (Next s (.access (.write (wordAddr s.width r j) .word v)) rest →
      ∃ x' : Nat, (∀ i, x'.testBit i =
          if 32 * j ≤ i ∧ i < 32 * j + 32 then v.getLsbD (i - 32 * j) else (s.x.get r).testBit i) ∧
        step s = .next { s with x := s.x.set r.val x', inputs := rest, resp := some .ack })

/-- R87: while BUSY = 1, a window read returns 0, a window write is ignored, and either sets BUSYACC and nothing else. -/
def Obligations.WindowRejectsAccessesWhileBusy : Prop :=
  ∀ (s : State) (f : Flight) (rest : List Input) (r : Reg) (j : Nat) (v : Word), s.engine = .running f →
    j < s.width.bits / 32 →
    (Next s (.access (.read (wordAddr s.width r j) .word)) rest →
      step s = .next { s with status := { s.status with busyacc := true }, inputs := rest, resp := some (.data 0) }) ∧
    (Next s (.access (.write (wordAddr s.width r j) .word v)) rest →
      step s = .next { s with status := { s.status with busyacc := true }, inputs := rest, resp := some .ack })

/-- R33, R35 to R39: what an aligned word read of each control and status register returns, field by field, in every state; the
read changes nothing. With R270 and R271: the number by which each error and each reason is read. -/
def Obligations.RegisterReadsReturnTheirFields : Prop :=
  (∀ (s : State) (rest : List Input) (a : Addr), a.toNat ≤ 0x14 → Next s (.access (.read a .word)) rest → a.toNat % 4 = 0 →
    ∃ d : Word, step s = .next { s with inputs := rest, resp := some (.data d) } ∧
      (a = 0x000#16 → d = 0x52534331#32) ∧
      (a = 0x004#16 → d.toNat = 8 * 2 ^ 24 + 16 * 2 ^ 16 + s.width.bits / 32) ∧
      (a = 0x008#16 → d.toNat = s.ie.toNat) ∧
      (a = 0x00C#16 → d.toNat / 2 ^ 8 = s.status.errcode.code.toNat ∧
        d.getLsbD 0 = s.busy ∧ d.getLsbD 1 = s.status.done ∧ d.getLsbD 2 = decide (s.status.errcode ≠ .none) ∧
        d.getLsbD 3 = s.status.prime ∧ d.getLsbD 4 = s.status.xneg ∧ d.getLsbD 5 = s.status.yneg ∧
        d.getLsbD 6 = s.status.overrun ∧ d.getLsbD 7 = s.status.busyacc) ∧
      (a = 0x010#16 → d = s.cmd) ∧
      (a = 0x014#16 → d.toNat = s.errinfo.index.toNat * 2 ^ 8 + s.errinfo.reason.code.toNat * 2 ^ 4 + s.errinfo.reg.val)) ∧
  (ErrCode.none.code = 0x00 ∧ ErrCode.illegal.code = 0x01 ∧ ErrCode.invalidInput.code = 0x02 ∧
    ErrCode.noInverse.code = 0x03) ∧
  (Reason.none.code = 0 ∧ Reason.zeroOperand.code = 1 ∧ Reason.outOfRange.code = 2 ∧ Reason.regRange.code = 3 ∧
    Reason.capacity.code = 4 ∧ Reason.count.code = 5 ∧ Reason.reservedOpcode.code = 6 ∧ Reason.reservedField.code = 7 ∧
    Reason.notCoprime.code = 8)

/-- R36, R37, R31: what a write to each control and status register other than CMD does. CTRL takes IE from bit 0, also while
BUSY; STATUS clears DONE, OVERRUN, BUSYACC where bits 1, 6, 7 are 1; ID, PARAM and ERRINFO ignore it. -/
def Obligations.RegisterWritesChangeTheirFieldsOnly : Prop :=
  ∀ (s : State) (rest : List Input) (v : Word),
    (Next s (.access (.write 0x008#16 .word v)) rest →
      step s = .next { s with ie := v.getLsbD 0, inputs := rest, resp := some .ack }) ∧
    (Next s (.access (.write 0x00C#16 .word v)) rest →
      step s = .next { s with
        status := { s.status with
          done := if v.getLsbD 1 then false else s.status.done
          overrun := if v.getLsbD 6 then false else s.status.overrun
          busyacc := if v.getLsbD 7 then false else s.status.busyacc }
        inputs := rest, resp := some .ack }) ∧
    (∀ a ∈ [0x000#16, 0x004#16, 0x014#16], Next s (.access (.write a .word v)) rest →
      step s = .next { s with inputs := rest, resp := some .ack })

/-- R152: a CMD write while BUSY = 0 is accepted in that step, whether the word is legal or not: CMD holds it, the engine is
RUNNING with the bank as its snapshot, DONE, ERRCODE, PRIME, XNEG, YNEG and ERRINFO are cleared, OVERRUN and BUSYACC are not. -/
def Obligations.CmdWriteIsAcceptedWhileIdle : Prop :=
  ∀ (s : State) (rest : List Input) (v : Word), s.engine = .idle → Next s (.access (.write 0x010#16 .word v)) rest →
    step s = .next { s with
      cmd := v
      engine := .running { cmd := v, snap := s.x, drawn := [] }
      status := { done := false, prime := false, xneg := false, yneg := false, overrun := s.status.overrun,
                  busyacc := s.status.busyacc, errcode := .none }
      errinfo := { reg := 0, reason := .none, index := 0 }
      inputs := rest, resp := some .ack }

/-- R153: a CMD write while BUSY = 1 is dropped; OVERRUN is set and nothing else changes. -/
def Obligations.CmdWriteIsDroppedWhileBusy : Prop :=
  ∀ (s : State) (f : Flight) (rest : List Input) (v : Word), s.engine = .running f →
    Next s (.access (.write 0x010#16 .word v)) rest →
    step s = .next { s with status := { s.status with overrun := true }, inputs := rest, resp := some .ack }

/-- R100: a word is transferred exactly in a step where `rnd_req = 1` and the source offers one; words are kept in the order
received, and the request is withdrawn (the last clause is the model's, log 7). -/
def Obligations.RandomWordsAreTransferredOnRequest : Prop :=
  ∀ (s : State) (rest : List Input) (w : Word), Next s (.randomWord w) rest →
    (∀ f, s.rndReq = true → s.engine = .running f →
      step s = .next { s with engine := .running { f with drawn := f.drawn ++ [w] }, rndReq := false, inputs := rest }) ∧
    (s.rndReq = false → step s = .next { s with inputs := rest })

/-- R85: loading an operand takes WORDS window writes, in any order: after them the register holds the value, and nothing else
has changed. -/
def Obligations.LoadingAnOperandInAnyOrderSetsIt : Prop :=
  ∀ (s : State) (rest : List Input) (r : Reg) (v : Nat) (order : List Nat), s.engine = .idle → s.x.fits s.width →
    v < 2 ^ s.width.bits → order.Perm (List.range (s.width.bits / 32)) →
    s.inputs = (order.map fun j => Input.access (.write (wordAddr s.width r j) .word (BitVec.ofNat 32 (v / 2 ^ (32 * j))))) ++ rest →
    core.run (s.width.bits / 32) s = .next { s with x := s.x.set r.val v, inputs := rest, resp := some .ack }

/-! ### Whole-machine rules -/

/-- R30: the bank changes only by reset, by a window write while BUSY = 0, and by a completion. -/
def Obligations.BankChangesOnlyByThreeEvents : Prop :=
  ∀ s t : State, step s = .next t → t.x ≠ s.x →
    (∃ rest, Next s .reset rest) ∨
    (∃ rest a v, s.engine = .idle ∧ Next s (.access (.write a .word v)) rest ∧ 0x8000 ≤ a.toNat ∧
      a.toNat < 0x8000 + 16 * (s.width.bits / 8)) ∨
    (EngineMoves s ∧ ∃ f, s.engine = .running f ∧ t.engine = .idle)

/-- R38: CMD changes only by reset and by an accepted CMD write, which it then holds. -/
def Obligations.CmdChangesOnlyByAnAcceptedWrite : Prop :=
  ∀ s t : State, step s = .next t → t.cmd ≠ s.cmd →
    (∃ rest, Next s .reset rest) ∨
    (∃ rest, s.engine = .idle ∧ Next s (.access (.write 0x010#16 .word t.cmd)) rest)

/-- R274, R37: OVERRUN and BUSYACC are sticky: a step clears one only by reset or by a STATUS write of 1 to its bit. -/
def Obligations.StickyFlagsStayUntilCleared : Prop :=
  ∀ s t : State, step s = .next t →
    (s.status.overrun = true → t.status.overrun = false → (∃ rest, Next s .reset rest) ∨
      ∃ rest v, Next s (.access (.write 0x00C#16 .word v)) rest ∧ v.getLsbD 6 = true) ∧
    (s.status.busyacc = true → t.status.busyacc = false → (∃ rest, Next s .reset rest) ∨
      ∃ rest v, Next s (.access (.write 0x00C#16 .word v)) rest ∧ v.getLsbD 7 = true)

/-- R280, R281: `irq = IE AND DONE`, and only the completion of a command or a CTRL write that sets IE raises it. -/
def Obligations.OnlyCompletionOrEnableRaisesIrq : Prop :=
  ∀ s t : State, step s = .next t →
    t.irq = (t.ie && t.status.done) ∧
    (s.irq = false → t.irq = true →
      (EngineMoves s ∧ s.busy = true ∧ t.busy = false) ∨
      (∃ rest v, Next s (.access (.write 0x008#16 .word v)) rest ∧ v.getLsbD 0 = true ∧ s.status.done = true))

/-- R151, R152, R302: a command in flight stays until it completes or reset comes: no other event changes its word, its snapshot
or BUSY, and nothing but a word from the port changes what it has drawn. -/
def Obligations.NothingCancelsACommandInFlight : Prop :=
  ∀ (s t : State) (f : Flight), s.engine = .running f → step s = .next t → (¬ ∃ rest, Next s .reset rest) →
    (EngineMoves s ∧ t.engine = .idle ∧ t.status.done = true) ∨
    (∃ drawn, t.engine = .running { f with drawn := drawn } ∧
      (drawn = f.drawn ∨ ∃ w rest, Next s (.randomWord w) rest ∧ s.rndReq = true ∧ drawn = f.drawn ++ [w]))

/-- R33, R35: in every state a read at `0x000` (ID) and at `0x004` (PARAM) returns the constant, and no step, reset included, changes
the width that PARAM tells. -/
def Obligations.ConstantsNeverChange : Prop :=
  ∀ s t : State, step s = .next t →
    t.width = s.width ∧
    s.readTarget (targetOf s.width 0x000#16) = 0x52534331#32 ∧ t.readTarget (targetOf t.width 0x000#16) = 0x52534331#32 ∧
    (s.readTarget (targetOf s.width 0x004#16)).toNat = 8 * 2 ^ 24 + 16 * 2 ^ 16 + s.width.bits / 32 ∧
    t.readTarget (targetOf t.width 0x004#16) = s.readTarget (targetOf s.width 0x004#16)
end

