-- ==== Sys2Proof/Laws/Arithmetic.lean ====
section
/-! SUPPORT. What the units' functions compute: the loops of the spec against the mathematics they stand for. -/

namespace Sys2Proof.Machine

/-- The Euclidean loop gives the gcd (R201). -/
theorem gcdLoop_eq {fuel a b : Nat} (h : b ≤ fuel) : gcdLoop fuel a b = Nat.gcd a b := by
  induction fuel generalizing a b with
  | zero => simp [gcdLoop, Nat.le_zero.mp h]
  | succ fuel ih =>
    unfold gcdLoop
    split
    · simp [*]
    · rename_i hb
      have : a % b < b := Nat.mod_lt _ (Nat.pos_of_ne_zero hb)
      rw [ih (by omega), Nat.gcd_comm b, ← Nat.gcd_rec, Nat.gcd_comm]

theorem gcdEuclid_eq (a b : Nat) : gcdEuclid a b = Nat.gcd a b := gcdLoop_eq (Nat.le_refl b)

/-- The reflection keeps the gcd (R203). -/
theorem gcd_reflect {r b : Nat} (h : r < b) : Nat.gcd b (reflect r b) = Nat.gcd b r := by
  unfold reflect
  split
  · exact Nat.gcd_self_sub_right h.le
  · rfl

/-- The balanced loop gives the gcd too (R203, R204). -/
theorem bgcdLoop_eq {fuel a b : Nat} (h : b ≤ fuel) : bgcdLoop fuel a b = Nat.gcd a b := by
  induction fuel generalizing a b with
  | zero => simp [bgcdLoop, Nat.le_zero.mp h]
  | succ fuel ih =>
    unfold bgcdLoop
    split
    · simp [*]
    · rename_i hb
      have hlt : a % b < b := Nat.mod_lt _ (Nat.pos_of_ne_zero hb)
      have hle : reflect (a % b) b < b := by unfold reflect; split <;> omega
      rw [ih (by omega), gcd_reflect hlt, Nat.gcd_comm b, ← Nat.gcd_rec, Nat.gcd_comm]

theorem gcdBalanced_eq (a b : Nat) : gcdBalanced a b = Nat.gcd a b := bgcdLoop_eq (Nat.le_refl b)

/-- The square-and-multiply loop multiplies the result by `base ^ k` (R191). -/
theorem powLoop_eq {m fuel result base k : Nat} (h : k ≤ fuel) (hr : result % m = result) :
    powLoop m fuel result base k = result * base ^ k % m := by
  induction fuel generalizing result base k with
  | zero => simp [powLoop, Nat.le_zero.mp h, hr]
  | succ fuel ih =>
    unfold powLoop
    split
    · simp [*]
    · rename_i hk
      rw [ih (by omega) (by split <;> simp [mulmod, hr])]
      have hsq : mulmod base base m ^ (k / 2) % m = base ^ (2 * (k / 2)) % m := by
        rw [mulmod, Nat.pow_mod, Nat.mod_mod, ← Nat.pow_mod, ← pow_two, ← pow_mul]
      rw [Nat.mul_mod, hsq, ← Nat.mul_mod]
      split
      · rename_i h1
        rw [mulmod, Nat.mod_mul_mod, Nat.mul_assoc, ← pow_succ']
        congr 3; omega
      · congr 3; omega

/-- `powmod` is the power reduced (R190). -/
theorem powmod_eq (n e m : Nat) : powmod n e m = n ^ e % m := by
  rw [powmod, powLoop_eq (Nat.le_refl e) (Nat.mod_mod 1 m), Nat.mod_mul_mod, Nat.one_mul, ← Nat.pow_mod]

/-- The iterative coefficient update is Mathlib's textbook `Nat.xgcdAux`, with the roles of the two rows exchanged (R205). -/
theorem xgcdLoop_eq {fuel oldR r : Nat} {oldS s oldT t : Int} (h : r ≤ fuel) :
    xgcdLoop fuel oldR r oldS s oldT t =
      ⟨(Nat.xgcdAux r t s oldR oldT oldS).1, (Nat.xgcdAux r t s oldR oldT oldS).2.2,
        (Nat.xgcdAux r t s oldR oldT oldS).2.1⟩ := by
  induction fuel generalizing oldR r oldS s oldT t with
  | zero => obtain rfl := Nat.le_zero.mp h; simp [xgcdLoop, Nat.xgcd_zero_left]
  | succ fuel ih =>
    unfold xgcdLoop
    split
    · rename_i hr; subst hr; simp [Nat.xgcd_zero_left]
    · rename_i hr
      have hmod : oldR - oldR / r * r = oldR % r := by
        have := Nat.div_add_mod oldR r
        rw [Nat.mul_comm] at this; omega
      have hlt : oldR % r < r := Nat.mod_lt _ (Nat.pos_of_ne_zero hr)
      rw [hmod, ih (by omega), Nat.xgcdAux_rec (Nat.pos_of_ne_zero hr), Int.natCast_ediv]

/-- The gcd that XGCD reports (R205, R208). -/
theorem xgcd_g (a b : Nat) : (xgcd a b).g = Nat.gcd a b := by
  rw [xgcd, xgcdLoop_eq (Nat.le_refl b), Nat.xgcdAux_fst, Nat.gcd_comm]

/-- The coefficient of `a` (R205). -/
theorem xgcd_x (a b : Nat) : (xgcd a b).x = Nat.gcdB b a := by
  rw [xgcd, xgcdLoop_eq (Nat.le_refl b)]; rfl

/-- The coefficient of `b` (R205). -/
theorem xgcd_y (a b : Nat) : (xgcd a b).y = Nat.gcdA b a := by
  rw [xgcd, xgcdLoop_eq (Nat.le_refl b)]; rfl

/-- Bézout's identity (R208). -/
theorem xgcd_bezout (a b : Nat) : (a : Int) * (xgcd a b).x + b * (xgcd a b).y = Nat.gcd a b := by
  rw [xgcd_x, xgcd_y, Nat.gcd_comm, Nat.gcd_eq_gcd_ab b a, Int.add_comm]

/-- The growth of one coefficient: with the two rows of opposite signs, the new magnitude is `|old| + q·|cur|`. -/
theorem natAbs_update {old cur : Int} (q : Nat) (h : old * cur ≤ 0) :
    (old - q * cur).natAbs = old.natAbs + q * cur.natAbs := by
  rcases Int.lt_trichotomy cur 0 with hc | hc | hc
  · have ho : 0 ≤ old := by nlinarith
    have : (q : Int) * cur ≤ 0 := by nlinarith
    zify
    rw [abs_of_nonneg (by linarith), abs_of_nonneg ho, abs_of_neg hc]; ring
  · simp [hc]
  · have ho : old ≤ 0 := by nlinarith
    have : 0 ≤ (q : Int) * cur := by positivity
    zify
    rw [abs_of_nonpos (by linarith), abs_of_nonpos ho, abs_of_pos hc]; ring

/-- The new pair of rows has opposite signs again. -/
theorem sign_update {old cur : Int} (q : Nat) (h : old * cur ≤ 0) : cur * (old - q * cur) ≤ 0 := by
  have : 0 ≤ (q : Int) * (cur * cur) := mul_nonneg (by positivity) (mul_self_nonneg cur)
  nlinarith

/-- The bound each coefficient keeps along the loop (R207): `oldR·|cur| + r·|old|` does not change, and at the end it is at
least `g` times the coefficient. -/
theorem xgcdLoop_bound {fuel oldR r : Nat} {oldS s oldT t : Int} (hfuel : r ≤ fuel) (hr : 0 < r) (ho : 0 < oldR)
    (hs : oldS * s ≤ 0) (ht : oldT * t ≤ 0) :
    (xgcdLoop fuel oldR r oldS s oldT t).g * (xgcdLoop fuel oldR r oldS s oldT t).x.natAbs
        ≤ oldR * s.natAbs + r * oldS.natAbs ∧
      (xgcdLoop fuel oldR r oldS s oldT t).g * (xgcdLoop fuel oldR r oldS s oldT t).y.natAbs
        ≤ oldR * t.natAbs + r * oldT.natAbs := by
  induction fuel generalizing oldR r oldS s oldT t with
  | zero => omega
  | succ fuel ih =>
    have hmod : oldR - oldR / r * r = oldR % r := by
      have := Nat.div_add_mod oldR r
      rw [Nat.mul_comm] at this; omega
    have hdm : oldR = r * (oldR / r) + oldR % r := (Nat.div_add_mod oldR r).symm
    have hlt : oldR % r < r := Nat.mod_lt _ hr
    have key : ∀ c d : Int, c * d ≤ 0 → r * (c - (oldR / r : Nat) * d).natAbs + oldR % r * d.natAbs
        = oldR * d.natAbs + r * c.natAbs := by
      intro c d hcd
      rw [natAbs_update _ hcd]
      conv_rhs => rw [hdm]
      ring
    unfold xgcdLoop
    rw [if_neg hr.ne', hmod, ← key _ _ hs, ← key _ _ ht]
    rcases Nat.eq_zero_or_pos (oldR % r) with h0 | h0
    · have hq : 1 ≤ oldR / r := Nat.div_pos (Nat.le_of_dvd ho (Nat.dvd_of_mod_eq_zero h0)) hr
      have hend : ∀ f o c u v : Int, xgcdLoop fuel r 0 c f v u = ⟨r, c, v⟩ := by
        intro f o c u v; cases fuel <;> simp [xgcdLoop]
      rw [h0]
      have grow : ∀ c d : Int, c * d ≤ 0 → d.natAbs ≤ (c - (oldR / r : Nat) * d).natAbs := by
        intro c d hcd
        rw [natAbs_update _ hcd]
        calc d.natAbs = 1 * d.natAbs := (Nat.one_mul _).symm
          _ ≤ oldR / r * d.natAbs := Nat.mul_le_mul_right _ hq
          _ ≤ _ := Nat.le_add_left _ _
      rw [hend _ 0]
      simp only [Nat.zero_mul, Nat.add_zero]
      exact ⟨Nat.mul_le_mul_left _ (grow _ _ hs), Nat.mul_le_mul_left _ (grow _ _ ht)⟩
    · exact ih (by omega) h0 hr (sign_update _ hs) (sign_update _ ht)

/-- `|x| ≤ b / g` and `|y| ≤ a / g` (R207). -/
theorem xgcd_bound {a b : Nat} (ha : 0 < a) (hb : 0 < b) :
    (xgcd a b).x.natAbs ≤ b / Nat.gcd a b ∧ (xgcd a b).y.natAbs ≤ a / Nat.gcd a b := by
  have h := xgcdLoop_bound (oldS := 1) (s := 0) (oldT := 0) (t := 1) (Nat.le_refl b) hb ha (by simp) (by simp)
  have hg : 0 < Nat.gcd a b := Nat.gcd_pos_of_pos_left _ ha
  rw [← xgcd, xgcd_g] at h
  constructor
  · rw [Nat.le_div_iff_mul_le hg, Nat.mul_comm]; simpa using h.1
  · rw [Nat.le_div_iff_mul_le hg, Nat.mul_comm]; simpa using h.2

/-- The inverse is found exactly when the operands are coprime, lies in `[0, m)` and inverts `n` (R221, S11). -/
theorem modinv_eq {n m : Nat} (hn : 0 < n) (hm : 0 < m) :
    (Nat.gcd n m ≠ 1 ∧ modinv n m = .notCoprime) ∨
    (Nat.gcd n m = 1 ∧ ∃ u, modinv n m = .found u ∧ u < m ∧ n * u % m = 1 % m) := by
  by_cases hg : Nat.gcd n m = 1
  · right
    refine ⟨hg, ?_⟩
    have hb := (xgcd_bound hn hm).1
    rw [hg, Nat.div_one] at hb
    have hbez := xgcd_bezout n m
    rw [hg] at hbez
    generalize hx : (xgcd n m).x = x at hb hbez
    generalize (xgcd n m).y = y at hbez
    have hne : x ≠ m := by
      rintro rfl
      have hdvd : (m : Int) ∣ 1 := ⟨n + y, by push_cast at hbez; linarith⟩
      have h1 : m = 1 := by exact_mod_cast Int.eq_one_of_dvd_one (by positivity) hdvd
      subst h1
      simp [xgcd, xgcdLoop] at hx
    have hcong : ∀ u : Int, 0 ≤ u → (∃ k : Int, u = x + k * m) → n * u.toNat % m = 1 % m := by
      rintro u hu ⟨k, hk⟩
      zify
      rw [Int.toNat_of_nonneg hu]
      have : (n : Int) * u = 1 + m * (n * k - y) := by rw [hk]; push_cast at hbez; linarith
      rw [this]; simp
    unfold modinv
    simp only [xgcd_g, hg, hx, ne_eq, not_true_eq_false, if_false]
    by_cases hneg : x < 0
    · have hr : 0 ≤ x + m ∧ x + m < m := by omega
      refine ⟨(x + m).toNat, by simp [hneg, hr], by omega, hcong _ hr.1 ⟨1, by ring⟩⟩
    · have hr : 0 ≤ x ∧ x < m := by omega
      refine ⟨x.toNat, by simp [hneg, hr], by omega, hcong _ hr.1 ⟨0, by ring⟩⟩
  · left
    exact ⟨hg, by simp [modinv, xgcd_g, hg]⟩

/-- No inversion modulo a nonzero `m` leaves `[0, m)` (R221, S11). -/
theorem modinv_in_range (n : Nat) {m : Nat} (hm : m ≠ 0) : modinv n m ≠ .outOfRange := by
  have hpos : 0 < m := Nat.pos_of_ne_zero hm
  rcases Nat.eq_zero_or_pos n with rfl | hn
  · simp only [modinv, xgcd_g, xgcd_x, Nat.gcdB_zero_right hm]
    split <;> simp [hpos]
  · rcases modinv_eq hn hpos with ⟨_, h⟩ | ⟨_, u, h, _⟩ <;> simp [h]

/-- The inverse found lies below the modulus (R221). -/
theorem modinv_found_lt {n m u : Nat} (h : modinv n m = .found u) : u < m := by
  simp only [modinv] at h
  split_ifs at h
  all_goals
    simp only [Inverse.found.injEq] at h
    omega

/-- BITLEN's defining property (R261). -/
theorem bitlen_spec {n : Nat} (h : n ≠ 0) : 2 ^ (bitlen n - 1) ≤ n ∧ n < 2 ^ bitlen n := by
  simp only [bitlen, h, if_false, Nat.add_sub_cancel]
  exact ⟨Nat.log2_self_le h, Nat.lt_log2_self⟩

@[simp] theorem bitlen_zero : bitlen 0 = 1 := rfl

/-- The scan splits off the power of two (R263). -/
theorem lsbLoop_eq {fuel n s : Nat} (h : n ≤ fuel) (hn : n ≠ 0) :
    ∃ k d, n = 2 ^ k * d ∧ d % 2 = 1 ∧ lsbLoop fuel n s = s + k := by
  induction fuel generalizing n s with
  | zero => omega
  | succ fuel ih =>
    unfold lsbLoop
    split
    · obtain ⟨k, d, h1, h2, h3⟩ := ih (n := n / 2) (s := s + 1) (by omega) (by omega)
      refine ⟨k + 1, d, ?_, h2, by omega⟩
      have : n = 2 * (n / 2) := by omega
      rw [this, h1]; ring
    · exact ⟨0, n, by simp, by omega, rfl⟩

/-- LSB's defining property: `n = 2^s · d` with `d` odd (R263). -/
theorem lsb_spec {n : Nat} (hn : n ≠ 0) : ∃ d, n = 2 ^ lsb n * d ∧ d % 2 = 1 := by
  obtain ⟨k, d, h1, h2, h3⟩ := lsbLoop_eq (s := 0) (Nat.le_refl n) hn
  refine ⟨d, ?_, h2⟩
  rw [lsb, h3, Nat.zero_add]; exact h1

end Sys2Proof.Machine
end

