-- ==== Sys2Proof/Laws/Operands.lean ====
section
/-! SUPPORT. What the operand forms do: registers (read after write), register arrays, the first bad element, and the words
of an operand. -/

namespace Sys2Proof.Machine

/-- Read after write (R17). -/
theorem read_write (b : Bank) (r q : Reg) (v : Nat) : (b.write r v).read q = if q = r then v else b.read q := by
  unfold Bank.read Bank.write
  simp only [Vector.get_eq_getElem, Vector.getElem_set, Fin.ext_iff, eq_comm]

@[simp] theorem read_write_same (b : Bank) (r : Reg) (v : Nat) : (b.write r v).read r = v := by simp [read_write]

theorem read_write_other (b : Bank) {r q : Reg} (v : Nat) (h : q ≠ r) : (b.write r v).read q = b.read q := by
  simp [read_write, h]

/-- Two banks with the same registers are equal. -/
theorem bank_ext {b c : Bank} (h : ∀ r : Reg, b.read r = c.read r) : b = c := by
  apply Vector.ext
  intro i hi
  simpa [Bank.read, Vector.get_eq_getElem] using h ⟨i, hi⟩

/-- Registers that a completion does not name are unchanged (R165). -/
theorem read_writeAll_other (b : Bank) (ws : List (Reg × Nat)) {q : Reg} (h : ∀ p ∈ ws, q ≠ p.1) :
    (b.writeAll ws).read q = b.read q := by
  induction ws generalizing b with
  | nil => rfl
  | cons p ws ih =>
    have hq := h p (by simp)
    simpa [Bank.writeAll, read_write_other _ _ hq] using ih (b.write p.1 p.2) (fun p' hp' => h p' (by simp [hp']))

/-- A write that fits keeps the bank in `[0, 2^W)` (R30). -/
theorem fits_write {b : Bank} {w : Width} (hb : b.fits w) (r : Reg) {v : Nat} (hv : v < w.bound) :
    (b.write r v).fits w := by
  intro q
  rw [read_write]
  split
  · exact hv
  · exact hb q

/-- Writes that fit keep the bank in `[0, 2^W)` (R30, R165). -/
theorem fits_writeAll {b : Bank} {w : Width} (hb : b.fits w) (ws : List (Reg × Nat)) (h : ∀ p ∈ ws, p.2 < w.bound) :
    (b.writeAll ws).fits w := by
  induction ws generalizing b with
  | nil => exact hb
  | cons p ws ih => exact ih (fits_write hb p.1 (h p (by simp))) (fun p' hp' => h p' (by simp [hp']))

theorem read_zero (r : Reg) : Bank.zero.read r = 0 := by
  simp [Bank.zero, Bank.read, Vector.get_eq_getElem]

/-- A register array that fits the bank, element `i` at `base + i`, or none when it would pass `r15` (R123, R158). -/
theorem regArray_eq (base k : Nat) : regArray base k =
    if k = 0 ∨ base + k ≤ 16 then some ((List.range k).map fun i => Fin.ofNat 16 (base + i)) else none := by
  induction k generalizing base with
  | zero => simp [regArray]
  | succ k ih =>
    unfold regArray
    rcases Nat.lt_or_ge base 16 with h | h
    · rw [dif_pos h, ih]
      have hc : (⟨base, h⟩ : Fin 16) = Fin.ofNat 16 base := Fin.ext (by simp [Fin.ofNat, Nat.mod_eq_of_lt h])
      rcases Nat.lt_or_ge 16 (base + (k + 1)) with h2 | h2
      · rw [if_neg (by omega), if_neg (by omega)]; rfl
      · rw [if_pos (by omega), if_pos (by omega)]
        simp [List.range_succ_eq_map, hc, Function.comp_def, Nat.add_assoc, Nat.add_comm 1]
    · rw [dif_neg (by omega), if_neg (by omega)]

/-- No element is bad (R275). -/
theorem firstBad_none {bad : Nat → Bool} {b : Bank} {i : Nat} {rs : List Reg} :
    firstBad bad b i rs = none ↔ ∀ r ∈ rs, bad (b.read r) = false := by
  induction rs generalizing i with
  | nil => simp [firstBad]
  | cons r rs ih => by_cases h : bad (b.read r) = true <;> simp [firstBad, h, ih]

/-- The first bad element and its index: every element before it is good (R275). -/
theorem firstBad_at {bad : Nat → Bool} {b : Bank} {i : Nat} {pre post : List Reg} {r : Reg}
    (hpre : ∀ q ∈ pre, bad (b.read q) = false) (hr : bad (b.read r) = true) :
    firstBad bad b i (pre ++ r :: post) = some (i + pre.length, r) := by
  induction pre generalizing i with
  | nil => simp [firstBad, hr]
  | cons q pre ih =>
    have := ih (i := i + 1) (fun q' hq' => hpre q' (by simp [hq']))
    simp [firstBad, hpre q (by simp), this]
    omega

/-- Bit `i` of word `j` is bit `32j + i` of the operand (R84). -/
theorem operandWord_getLsbD (v j i : Nat) : (operandWord v j).getLsbD i = (decide (i < 32) && v.testBit (32 * j + i)) := by
  rw [operandWord, BitVec.getLsbD_ofNat, Nat.testBit_div_two_pow, Nat.add_comm i]

/-- Word `j` replaced: the bits of the word come from the data, every other bit stays (R85). -/
theorem setOperandWord_testBit (v j : Nat) (d : Word) (i : Nat) : (setOperandWord v j d).testBit i =
    if 32 * j ≤ i ∧ i < 32 * j + 32 then d.getLsbD (i - 32 * j) else v.testBit i := by
  have hlow : v % 2 ^ (32 * j) < 2 ^ (32 * j) := Nat.mod_lt _ (Nat.two_pow_pos _)
  have hd : d.toNat < 2 ^ 32 := d.isLt
  unfold setOperandWord
  rw [Nat.add_comm (v % _), Nat.testBit_two_pow_mul_add _ hlow, Nat.add_comm d.toNat, Nat.testBit_two_pow_mul_add _ hd]
  by_cases h1 : i < 32 * j
  · simp [h1, Nat.testBit_mod_two_pow]
  · by_cases h2 : i < 32 * j + 32
    · have h3 : i - 32 * j < 32 := by omega
      simp [h1, h2, h3, BitVec.testBit_toNat]
    · have h3 : ¬ i - 32 * j < 32 := by omega
      simp only [h1, h2, h3, if_false, and_false, Nat.testBit_div_two_pow]
      congr 1
      omega

end Sys2Proof.Machine
end

