-- ==== Sys2Proof/Laws/State.lean ====
section
/-! SUPPORT. One lemma per field per update of the state, so that no later proof unfolds a record update. -/

namespace Sys2Proof.Machine

section Accept
variable (s : State) (w : Word)
@[simp] theorem accept_width : (s.accept w).width = s.width := rfl
@[simp] theorem accept_x : (s.accept w).x = s.x := rfl
@[simp] theorem accept_ie : (s.accept w).ie = s.ie := rfl
@[simp] theorem accept_status : (s.accept w).status = s.status.atAcceptance := rfl
@[simp] theorem accept_cmd : (s.accept w).cmd = w := rfl
@[simp] theorem accept_errinfo : (s.accept w).errinfo = ErrInfo.zero := rfl
@[simp] theorem accept_engine : (s.accept w).engine = .running ⟨w, s.x, []⟩ := rfl
@[simp] theorem accept_staged : (s.accept w).staged = s.staged := rfl
@[simp] theorem accept_rndReq : (s.accept w).rndReq = s.rndReq := rfl
@[simp] theorem accept_resp : (s.accept w).resp = s.resp := rfl
@[simp] theorem accept_inputs : (s.accept w).inputs = s.inputs := rfl
end Accept

section StageCommit
variable (s : State) (r : Staged)
@[simp] theorem stage_staged : (s.stage r).staged = some r := rfl
@[simp] theorem commit_stage_width : (s.stage r).commit.width = s.width := rfl
@[simp] theorem commit_stage_x : (s.stage r).commit.x = s.x.writeAll r.writes := rfl
@[simp] theorem commit_stage_ie : (s.stage r).commit.ie = s.ie := rfl
@[simp] theorem commit_stage_status :
    (s.stage r).commit.status = s.status.atSuccess r.prime r.xneg r.yneg := rfl
@[simp] theorem commit_stage_cmd : (s.stage r).commit.cmd = s.cmd := rfl
@[simp] theorem commit_stage_errinfo : (s.stage r).commit.errinfo = ⟨0, .none, r.index⟩ := rfl
@[simp] theorem commit_stage_engine : (s.stage r).commit.engine = .idle := rfl
@[simp] theorem commit_stage_staged : (s.stage r).commit.staged = none := rfl
@[simp] theorem commit_stage_rndReq : (s.stage r).commit.rndReq = false := rfl
@[simp] theorem commit_stage_resp : (s.stage r).commit.resp = s.resp := rfl
@[simp] theorem commit_stage_inputs : (s.stage r).commit.inputs = s.inputs := rfl
end StageCommit

section CompleteError
variable (s : State) (e : CmdError)
@[simp] theorem completeError_width : (s.completeError e).width = s.width := rfl
@[simp] theorem completeError_x : (s.completeError e).x = s.x := rfl
@[simp] theorem completeError_ie : (s.completeError e).ie = s.ie := rfl
@[simp] theorem completeError_status : (s.completeError e).status = s.status.atError e.code := rfl
@[simp] theorem completeError_cmd : (s.completeError e).cmd = s.cmd := rfl
@[simp] theorem completeError_errinfo : (s.completeError e).errinfo = e.info := rfl
@[simp] theorem completeError_engine : (s.completeError e).engine = .idle := rfl
@[simp] theorem completeError_staged : (s.completeError e).staged = none := rfl
@[simp] theorem completeError_rndReq : (s.completeError e).rndReq = false := rfl
@[simp] theorem completeError_resp : (s.completeError e).resp = s.resp := rfl
@[simp] theorem completeError_inputs : (s.completeError e).inputs = s.inputs := rfl
end CompleteError

section RequestWord
variable (s : State)
@[simp] theorem requestWord_width : s.requestWord.width = s.width := rfl
@[simp] theorem requestWord_x : s.requestWord.x = s.x := rfl
@[simp] theorem requestWord_ie : s.requestWord.ie = s.ie := rfl
@[simp] theorem requestWord_status : s.requestWord.status = s.status := rfl
@[simp] theorem requestWord_cmd : s.requestWord.cmd = s.cmd := rfl
@[simp] theorem requestWord_errinfo : s.requestWord.errinfo = s.errinfo := rfl
@[simp] theorem requestWord_engine : s.requestWord.engine = s.engine := rfl
@[simp] theorem requestWord_staged : s.requestWord.staged = s.staged := rfl
@[simp] theorem requestWord_rndReq : s.requestWord.rndReq = true := rfl
@[simp] theorem requestWord_resp : s.requestWord.resp = s.resp := rfl
@[simp] theorem requestWord_inputs : s.requestWord.inputs = s.inputs := rfl
end RequestWord

section FlagBusyAccess
variable (s : State)
@[simp] theorem flagBusyAccess_width : s.flagBusyAccess.width = s.width := rfl
@[simp] theorem flagBusyAccess_x : s.flagBusyAccess.x = s.x := rfl
@[simp] theorem flagBusyAccess_ie : s.flagBusyAccess.ie = s.ie := rfl
@[simp] theorem flagBusyAccess_cmd : s.flagBusyAccess.cmd = s.cmd := rfl
@[simp] theorem flagBusyAccess_errinfo : s.flagBusyAccess.errinfo = s.errinfo := rfl
@[simp] theorem flagBusyAccess_engine : s.flagBusyAccess.engine = s.engine := rfl
@[simp] theorem flagBusyAccess_staged : s.flagBusyAccess.staged = s.staged := rfl
@[simp] theorem flagBusyAccess_rndReq : s.flagBusyAccess.rndReq = s.rndReq := rfl
@[simp] theorem flagBusyAccess_inputs : s.flagBusyAccess.inputs = s.inputs := rfl
@[simp] theorem flagBusyAccess_busyacc : s.flagBusyAccess.status.busyacc = true := rfl
@[simp] theorem flagBusyAccess_overrun : s.flagBusyAccess.status.overrun = s.status.overrun := rfl
@[simp] theorem flagBusyAccess_done : s.flagBusyAccess.status.done = s.status.done := rfl
@[simp] theorem flagBusyAccess_errcode : s.flagBusyAccess.status.errcode = s.status.errcode := rfl
end FlagBusyAccess

section Reset
variable (s : State) (w : Width)
@[simp] theorem applyReset_width : s.applyReset.width = s.width := rfl
@[simp] theorem applyReset_inputs : s.applyReset.inputs = s.inputs := rfl
@[simp] theorem applyReset_engine : s.applyReset.engine = .idle := rfl
@[simp] theorem applyReset_x : s.applyReset.x = Bank.zero := rfl
@[simp] theorem applyReset_cmd : s.applyReset.cmd = 0 := rfl
@[simp] theorem applyReset_status : s.applyReset.status = Status.zero := rfl
@[simp] theorem applyReset_ie : s.applyReset.ie = false := rfl
@[simp] theorem resetAt_width : (State.resetAt w).width = w := rfl
@[simp] theorem resetAt_engine : (State.resetAt w).engine = .idle := rfl
@[simp] theorem resetAt_x : (State.resetAt w).x = Bank.zero := rfl
end Reset

section StatusUpdates
variable (t : Status) (v : Word) (p xn yn : Bool) (c : ErrCode)
@[simp] theorem clearWritten_prime : (t.clearWritten v).prime = t.prime := rfl
@[simp] theorem clearWritten_xneg : (t.clearWritten v).xneg = t.xneg := rfl
@[simp] theorem clearWritten_yneg : (t.clearWritten v).yneg = t.yneg := rfl
@[simp] theorem clearWritten_errcode : (t.clearWritten v).errcode = t.errcode := rfl
@[simp] theorem atAcceptance_done : t.atAcceptance.done = false := rfl
@[simp] theorem atAcceptance_errcode : t.atAcceptance.errcode = .none := rfl
@[simp] theorem atAcceptance_overrun : t.atAcceptance.overrun = t.overrun := rfl
@[simp] theorem atAcceptance_busyacc : t.atAcceptance.busyacc = t.busyacc := rfl
@[simp] theorem atSuccess_done : (t.atSuccess p xn yn).done = true := rfl
@[simp] theorem atSuccess_prime : (t.atSuccess p xn yn).prime = p := rfl
@[simp] theorem atSuccess_xneg : (t.atSuccess p xn yn).xneg = xn := rfl
@[simp] theorem atSuccess_yneg : (t.atSuccess p xn yn).yneg = yn := rfl
@[simp] theorem atSuccess_errcode : (t.atSuccess p xn yn).errcode = .none := rfl
@[simp] theorem atSuccess_overrun : (t.atSuccess p xn yn).overrun = t.overrun := rfl
@[simp] theorem atSuccess_busyacc : (t.atSuccess p xn yn).busyacc = t.busyacc := rfl
@[simp] theorem atError_done : (t.atError c).done = true := rfl
@[simp] theorem atError_prime : (t.atError c).prime = false := rfl
@[simp] theorem atError_xneg : (t.atError c).xneg = false := rfl
@[simp] theorem atError_yneg : (t.atError c).yneg = false := rfl
@[simp] theorem atError_errcode : (t.atError c).errcode = c := rfl
@[simp] theorem atError_overrun : (t.atError c).overrun = t.overrun := rfl
@[simp] theorem atError_busyacc : (t.atError c).busyacc = t.busyacc := rfl
end StatusUpdates

@[simp] theorem busy_idle : Engine.idle.busy = false := rfl
@[simp] theorem busy_running (f : Flight) : (Engine.running f).busy = true := rfl

/-- The snapshot a command in flight reads (R152). -/
theorem snapshot_running {s : State} {f : Flight} (h : s.engine = .running f) : s.snapshot = f.snap := by
  simp [State.snapshot, h]

/-- The words a command in flight has drawn (R247). -/
theorem drawn_running {s : State} {f : Flight} (h : s.engine = .running f) : s.drawn = f.drawn := by
  simp [State.drawn, h]

/-- BUSY is 1 exactly when a command is in flight (R40). -/
theorem busy_iff (s : State) : s.busy = true ↔ ∃ f, s.engine = .running f := by
  unfold State.busy
  cases s.engine <;> simp

end Sys2Proof.Machine
end

