-- ==== Sys2Proof/Laws/Ops.lean ====
section
/-! SUPPORT. What the shared operations can do, said once: the engine step of a command, a host access, an offered word, and one
event of the total order. -/

namespace Sys2Proof.Machine

/-- The computation of each command as a function of the width, the snapshot and the words drawn (R155). -/
def commandResult (i : Instr) (w : Width) (b : Bank) (drawn : List Word) : CmdResult :=
  match i with
  | .modmul rd ra rb rm => modmulResult b rd ra rb rm
  | .modpow rd rn re rm => modpowResult b rd rn re rm
  | .gcd rd ra rb => gcdResult b rd ra rb
  | .bgcd rd ra rb => bgcdResult b rd ra rb
  | .xgcd rd ra rb => xgcdResult w b rd ra rb
  | .modinv rd rn rm => modinvResult b rd rn rm
  | .crt rd rx rm k => crtResult w b rd rx rm k
  | .mrtestRandom rd rn rounds => mrtestRandomResult b drawn rd rn rounds
  | .mrtestRegs rd rn rw rounds => mrtestRegsResult b rd rn rw rounds
  | .bitlen rd rn => bitlenResult b rd rn
  | .lsb rd rn => lsbResult b rd rn

/-- Every arm of `exec` is the shared completion of its computation. -/
theorem exec_eq (i : Instr) (s : State) : exec i s = finish (commandResult i s.width s.snapshot s.drawn) s := by
  cases i <;> rfl

/-- What an engine step that answers a next state did (R157, R165, R100). -/
theorem finish_next {r : CmdResult} {s t : State} (h : finish r s = .next t) :
    (∃ st, r = .success st ∧ t = (s.stage st).commit) ∨ (∃ e, r = .raise e ∧ t = s.completeError e) ∨
      (r = .needWord ∧ t = s.requestWord) := by
  cases r <;> simp only [finish, Host.Outcome.next.injEq, reduceCtorEq] at h <;> simp [h]

/-- A command stops only where the spec asks for a check (S10, S11). -/
theorem finish_answers {r : CmdResult} {s : State} (h : ∀ why, r ≠ .stop why) : ∃ t, finish r s = .next t := by
  cases r with
  | stop why => exact absurd rfl (h why)
  | _ => exact ⟨_, rfl⟩

/-- The engine's step on the word in flight, as the shared completion of its computation (R127, R154). -/
theorem engineStep_running {s : State} {f : Flight} (he : s.engine = .running f) :
    s.engineStep = match decode f.cmd with
      | .command i => finish (commandResult i s.width f.snap f.drawn) s
      | .illegal why => .next (s.completeError (illegalError why)) := by
  simp only [State.engineStep, he, State.runWord]
  cases decode f.cmd with
  | command i => simp only [exec_eq, snapshot_running he, drawn_running he]
  | illegal why => rfl

/-- The engine's step: nothing while IDLE (R40). -/
theorem engineStep_idle {s : State} (he : s.engine = .idle) : s.engineStep = .next s := by
  simp only [State.engineStep, he]

/-- BUSY is the phase (R40). -/
theorem engine_of_not_busy {s : State} (hb : s.busy = false) : s.engine = .idle := by
  cases he : s.engine with
  | idle => rfl
  | running f => simp [State.busy, he, Engine.busy] at hb

/-- What the engine step can do: nothing while IDLE; on a command, what its computation comes to; on any other word, ILLEGAL. -/
theorem engineStep_cases {s t : State} (h : s.engineStep = .next t) :
    (s.engine = .idle ∧ t = s) ∨
    (∃ f, s.engine = .running f ∧
      ((∃ i, decode f.cmd = .command i ∧ finish (commandResult i s.width f.snap f.drawn) s = .next t) ∨
       (∃ why, decode f.cmd = .illegal why ∧ t = s.completeError (illegalError why)))) := by
  unfold State.engineStep at h
  split at h
  · rename_i he
    exact .inl ⟨he, (Host.Outcome.next.inj h).symm⟩
  · rename_i f he
    refine .inr ⟨f, he, ?_⟩
    unfold State.runWord at h
    split at h
    · rename_i i hi
      rw [exec_eq, snapshot_running he, drawn_running he] at h
      exact .inl ⟨i, hi, h⟩
    · rename_i why hw
      exact .inr ⟨why, hw, (Host.Outcome.next.inj h).symm⟩

/-- What an offered word does (R100): nothing unless a command in flight asks for it. -/
theorem offerWord_cases (s : State) (w : Word) :
    (s.offerWord w = s) ∨ (∃ f, s.rndReq = true ∧ s.engine = .running f ∧
      s.offerWord w = { s with engine := .running { f with drawn := f.drawn ++ [w] }, rndReq := false }) := by
  unfold State.offerWord
  split
  · rename_i f hr he
    exact .inr ⟨f, hr, he, rfl⟩
  · exact .inl rfl

/-- The step of a listed event (R93). -/
theorem step_event {s : State} {e : Input} {rest : List Input} (h : s.inputs = e :: rest) :
    step s = State.handle { s with inputs := rest } e := by
  simp only [step, h]

/-- The step with no event listed: the engine moves (R154, log 2). -/
theorem step_no_event {s : State} (h : s.inputs = []) : step s = s.engineStep := by
  simp only [step, h]

/-- What a step that answers a next state was: one of the four events, or the engine's own move with no event listed (R93). -/
theorem step_cases {s t : State} (h : step s = .next t) :
    (∃ s', (s.inputs = [] ∧ s' = s ∨ ∃ rest, s.inputs = .engine :: rest ∧ s' = { s with inputs := rest }) ∧
      s'.engineStep = .next t) ∨
    (∃ a rest, s.inputs = .access a :: rest ∧ t = State.hostAccess { s with inputs := rest } a) ∨
    (∃ w rest, s.inputs = .randomWord w :: rest ∧ t = State.offerWord { s with inputs := rest } w) ∨
    (∃ rest, s.inputs = .reset :: rest ∧ t = { State.resetAt s.width with inputs := rest }) := by
  unfold step at h
  split at h
  · rename_i hi
    exact .inl ⟨s, .inl ⟨hi, rfl⟩, h⟩
  · rename_i e rest hi
    cases e with
    | access a => exact .inr (.inl ⟨a, rest, hi, (Host.Outcome.next.inj h).symm⟩)
    | engine => exact .inl ⟨_, .inr ⟨rest, hi, rfl⟩, h⟩
    | randomWord w => exact .inr (.inr (.inl ⟨w, rest, hi, (Host.Outcome.next.inj h).symm⟩))
    | reset => exact .inr (.inr (.inr ⟨rest, hi, (Host.Outcome.next.inj h).symm⟩))

/-- An admitted read (R81, R91). -/
theorem hostAccess_read {s : State} {a : Addr} {size : Size} (h : accessAdmitted a size = true) :
    s.hostAccess (.read a size) =
      { s.afterRead (targetOf s.width a) with resp := some (.data (s.readTarget (targetOf s.width a))) } := by
  simp only [State.hostAccess, h, if_true]

/-- An admitted write (R81, R91). -/
theorem hostAccess_write {s : State} {a : Addr} {size : Size} {v : Word} (h : accessAdmitted a size = true) :
    s.hostAccess (.write a size v) = { s.writeTarget v (targetOf s.width a) with resp := some .ack } := by
  simp only [State.hostAccess, h, if_true]

/-- An access that is not admitted (R81, R273). -/
theorem hostAccess_busError {s : State} {a : Addr} {size : Size} (h : ¬ accessAdmitted a size = true) :
    s.hostAccess (.read a size) = { s with resp := some .busError } ∧
      ∀ v, s.hostAccess (.write a size v) = { s with resp := some .busError } := by
  simp only [State.hostAccess, h, if_false, implies_true, and_self, Bool.false_eq_true]

/-- Each writable register has one address (R32). -/
theorem targetOf_register {w : Width} {a : Addr} :
    (targetOf w a = .ctrl → a = 0x008#16) ∧ (targetOf w a = .status → a = 0x00C#16) ∧
      (targetOf w a = .cmd → a = 0x010#16) := by
  unfold targetOf windowTarget
  refine ⟨?_, ?_, ?_⟩ <;> intro h <;> (repeat' split at h) <;> first | assumption | cases h

/-- What a host access can do to the state, apart from the response it leaves (R31, R36 to R38, R81, R83, R85, R87): nothing;
set BUSYACC; write CTRL, the W1C bits, CMD, or a word of the bank while idle. -/
theorem hostAccess_cases (s : State) (a : Access) : ∃ resp,
    (s.hostAccess a = { s with resp := resp }) ∨
    (s.busy = true ∧ s.hostAccess a = { s.flagBusyAccess with resp := resp }) ∨
    (∃ v, a = .write 0x008#16 .word v ∧ s.hostAccess a = { s with ie := v.getLsbD 0, resp := resp }) ∨
    (∃ v, a = .write 0x00C#16 .word v ∧ s.hostAccess a = { s with status := s.status.clearWritten v, resp := resp }) ∨
    (∃ v, a = .write 0x010#16 .word v ∧ s.hostAccess a = { s.writeCmd v with resp := resp }) ∨
    (∃ ad r j v, a = .write ad .word v ∧ targetOf s.width ad = .window r j ∧ s.busy = false ∧
      s.hostAccess a = { s with x := s.x.write r (setOperandWord (s.x.read r) j v), resp := resp }) := by
  cases a with
  | read ad size =>
    by_cases hadm : accessAdmitted ad size = true
    · refine ⟨some (.data (s.readTarget (targetOf s.width ad))), ?_⟩
      rw [hostAccess_read hadm]
      generalize ht : targetOf s.width ad = tgt
      cases tgt with
      | window r j =>
        by_cases hb : s.busy = true
        · exact .inr (.inl ⟨hb, by simp only [State.afterRead, hb, if_true]⟩)
        · exact .inl (by simp only [State.afterRead, hb]; rfl)
      | _ => exact .inl rfl
    · exact ⟨_, .inl (hostAccess_busError hadm).1⟩
  | write ad size v =>
    by_cases hadm : accessAdmitted ad size = true
    · obtain rfl : size = .word := by simp [accessAdmitted] at hadm; exact hadm.1
      refine ⟨some .ack, ?_⟩
      rw [hostAccess_write hadm]
      generalize ht : targetOf s.width ad = tgt
      cases tgt with
      | ctrl => exact .inr (.inr (.inl ⟨v, by rw [targetOf_register.1 ht], rfl⟩))
      | status => exact .inr (.inr (.inr (.inl ⟨v, by rw [targetOf_register.2.1 ht], rfl⟩)))
      | cmd => exact .inr (.inr (.inr (.inr (.inl ⟨v, by rw [targetOf_register.2.2 ht], rfl⟩))))
      | window r j =>
        by_cases hb : s.busy = true
        · exact .inr (.inl ⟨hb, by simp only [State.writeTarget, hb, if_true]⟩)
        · exact .inr (.inr (.inr (.inr (.inr ⟨ad, r, j, v, rfl, ht, by simpa using hb, by
            simp only [State.writeTarget, hb]; rfl⟩))))
      | _ => exact .inl rfl
    · exact ⟨_, .inl ((hostAccess_busError hadm).2 v)⟩

end Sys2Proof.Machine
end

