-- ==== Sys2Proof/Laws/Commands.lean ====
section
/-! SUPPORT. What the computation of any command can come to, said once over all commands: which registers and flags a result
names, which errors are raised, when a random word is asked for, and that every result fits and no check of the spec's fails. -/

namespace Sys2Proof.Machine

/-- The registers a command may write (R126, R158). -/
def commandTargets : Instr → List Nat
  | .modmul rd _ _ _ => [rd.val]
  | .modpow rd _ _ _ => [rd.val]
  | .gcd rd _ _ => [rd.val]
  | .bgcd rd _ _ => [rd.val]
  | .xgcd rd _ _ => [rd.val, rd.val + 1, rd.val + 2]
  | .modinv rd _ _ => [rd.val]
  | .crt rd _ _ _ => [rd.val]
  | .mrtestRandom rd _ _ => [rd.val]
  | .mrtestRegs rd _ _ _ => [rd.val]
  | .bitlen rd _ => [rd.val]
  | .lsb rd _ => [rd.val]

/-- The command gives a primality verdict (R242). -/
def isPrimalityTest : Instr → Prop
  | .mrtestRandom _ _ _ => True
  | .mrtestRegs _ _ _ _ => True
  | _ => False

/-- The command gives signed coefficients (R205). -/
def isExtendedGcd : Instr → Prop
  | .xgcd _ _ _ => True
  | _ => False

/-- The command draws random words (R101). -/
def drawsWords : Instr → Prop
  | .mrtestRandom _ _ _ => True
  | _ => False

/-- What a result names: a success writes only the command's registers and sets only its flags (R37, R165); an error has a code
and a reason (R271); only a random MRTEST waits for a word (R101). -/
def CmdResult.Shape (i : Instr) : CmdResult → Prop
  | .success st => (∀ p ∈ st.writes, p.1.val ∈ commandTargets i) ∧ (st.prime = true → isPrimalityTest i) ∧
      (st.xneg = true ∨ st.yneg = true → isExtendedGcd i)
  | .raise e => e.code ≠ .none ∧ e.info.reason ≠ .none
  | .needWord => drawsWords i
  | .stop _ => True

/-- Every value of a result fits a register (R13, R165), and no check of S10 and S11 fails. -/
def CmdResult.Fits (w : Width) : CmdResult → Prop
  | .success st => ∀ p ∈ st.writes, p.2 < w.bound
  | .raise _ => True
  | .needWord => True
  | .stop _ => False

section Shape
variable {i : Instr}

theorem shape_invalidInput {r : Reason} {q : Reg} {n : Nat} (h : r ≠ .none) : (invalidInput r q n).Shape i :=
  ⟨by simp, h⟩

theorem shape_noInverse {q : Reg} {n : Nat} : (noInverse q n).Shape i := ⟨by simp, by simp⟩

theorem shape_oneResult {rd : Reg} {v : Nat} (h : rd.val ∈ commandTargets i) : (oneResult rd v).Shape i := by
  simp [oneResult, CmdResult.Shape, h]

theorem shape_verdict {rd : Reg} {v : Verdict} (h : rd.val ∈ commandTargets i) (hp : isPrimalityTest i)
    (hw : v = .needWord → drawsWords i) : (verdictResult rd v).Shape i := by
  cases v <;> simp_all [verdictResult, CmdResult.Shape]

theorem shape_mrTop {b : Bank} {rd rn : Reg} {r : CmdResult} (h : rd.val ∈ commandTargets i) (hp : isPrimalityTest i)
    (hr : r.Shape i) : (mrTop b rd rn r).Shape i := by
  unfold mrTop
  split_ifs
  · exact shape_invalidInput (by decide)
  · exact shape_verdict h hp (by simp)
  · exact shape_verdict h hp (by simp)
  · exact hr

theorem shape_crtSum {b : Bank} {rd : Reg} {bigM n sum : Nat} {l : List (Reg × Reg)} (h : rd.val ∈ commandTargets i) :
    (crtSum b rd bigM n sum l).Shape i := by
  induction l generalizing n sum with
  | nil => exact shape_oneResult h
  | cons p l ih =>
    simp only [crtSum]
    split
    · exact ih
    · exact shape_noInverse
    · trivial

end Shape

/-- Rounds with given witnesses never wait for a word (R246). -/
theorem roundsWith_decided {n i : Nat} {ws : List Nat} : roundsWith n i ws ≠ .needWord := by
  induction ws generalizing i with
  | nil => simp [roundsWith]
  | cons a ws ih => unfold roundsWith; split <;> simp [ih]

/-- What the computation of every command can come to, whatever the bank holds. -/
theorem commandResult_shape (i : Instr) (w : Width) (b : Bank) (drawn : List Word) :
    (commandResult i w b drawn).Shape i := by
  cases i <;> simp only [commandResult]
  case modmul => unfold modmulResult; split_ifs <;> [exact shape_invalidInput (by decide); exact shape_oneResult (by simp [commandTargets])]
  case modpow => unfold modpowResult; split_ifs <;> [exact shape_invalidInput (by decide); exact shape_oneResult (by simp [commandTargets])]
  case gcd => unfold gcdResult; split_ifs <;> [exact shape_invalidInput (by decide); exact shape_oneResult (by simp [commandTargets])]
  case bgcd => unfold bgcdResult; split_ifs <;> [exact shape_invalidInput (by decide); exact shape_oneResult (by simp [commandTargets])]
  case lsb => unfold lsbResult; split_ifs <;> [exact shape_invalidInput (by decide); exact shape_oneResult (by simp [commandTargets])]
  case bitlen => exact shape_oneResult (by simp [commandTargets])
  case modinv =>
    unfold modinvResult
    split_ifs
    · exact shape_invalidInput (by decide)
    · exact shape_invalidInput (by decide)
    · split
      · exact shape_oneResult (by simp [commandTargets])
      · exact shape_noInverse
      · trivial
  case xgcd =>
    simp only [xgcdResult]
    split_ifs <;> first
      | exact shape_invalidInput (by decide)
      | trivial
      | simp [CmdResult.Shape, bezoutStaged, commandTargets, isExtendedGcd]
  case crt =>
    unfold crtResult crtCompute
    repeat' split
    all_goals first
      | exact shape_invalidInput (by decide)
      | exact shape_crtSum (by simp [commandTargets])
  case mrtestRandom =>
    unfold mrtestRandomResult
    split_ifs
    · exact shape_invalidInput (by decide)
    · exact shape_mrTop (by simp [commandTargets]) trivial (shape_verdict (by simp [commandTargets]) trivial fun _ => trivial)
  case mrtestRegs =>
    unfold mrtestRegsResult
    split_ifs
    · exact shape_invalidInput (by decide)
    · split
      · exact shape_invalidInput (by decide)
      · refine shape_mrTop (by simp [commandTargets]) trivial ?_
        unfold witnessRounds
        split
        · exact shape_invalidInput (by decide)
        · exact shape_verdict (by simp [commandTargets]) trivial fun h => absurd h roundsWith_decided

section Fits
variable {w : Width}

theorem bits_lt_bound (w : Width) : w.bits < w.bound := Nat.lt_two_pow_self

theorem one_lt_bound (w : Width) : 1 < w.bound := by cases w <;> exact Nat.one_lt_two_pow (by decide)

theorem fits_oneResult {rd : Reg} {v : Nat} (h : v < w.bound) : (oneResult rd v).Fits w := by
  simpa [oneResult, CmdResult.Fits] using h

theorem fits_verdict {rd : Reg} {v : Verdict} : (verdictResult rd v).Fits w := by
  have := one_lt_bound w
  cases v <;> simp [verdictResult, CmdResult.Fits] <;> omega

theorem fits_mrTop {b : Bank} {rd rn : Reg} {r : CmdResult} (hr : r.Fits w) : (mrTop b rd rn r).Fits w := by
  unfold mrTop
  split_ifs
  · trivial
  · exact fits_verdict
  · exact fits_verdict
  · exact hr

/-- A remainder by a register fits (R181, R191). -/
theorem mod_lt_bound {b : Bank} (hb : b.fits w) (r : Reg) (a : Nat) (h : b.read r ≠ 0) : a % b.read r < w.bound :=
  (Nat.mod_lt a (Nat.pos_of_ne_zero h)).trans (hb r)

/-- The product of moduli that pass the capacity check fits (R232). -/
theorem modulusProduct_lt {bound : Nat} {b : Bank} {acc i : Nat} {l : List Reg} (ha : acc < bound)
    (h : capacityExceeded bound b acc i l = none) : modulusProduct b acc l < bound := by
  induction l generalizing acc i with
  | nil => exact ha
  | cons r l ih =>
    rw [capacityExceeded] at h
    split at h
    · cases h
    · exact ih (by omega) h

/-- The product of nonzero moduli is positive (R160). -/
theorem modulusProduct_pos {b : Bank} {acc : Nat} {l : List Reg} (ha : 0 < acc) (h : ∀ r ∈ l, b.read r ≠ 0) :
    0 < modulusProduct b acc l := by
  induction l generalizing acc with
  | nil => exact ha
  | cons r l ih => exact ih (Nat.mul_pos ha (Nat.pos_of_ne_zero (h r (by simp)))) (fun q hq => h q (by simp [hq]))

theorem fits_crtSum {b : Bank} {rd : Reg} {bigM n sum : Nat} {l : List (Reg × Reg)} (h0 : 0 < bigM) (hM : bigM < w.bound)
    (hl : ∀ p ∈ l, b.read p.2 ≠ 0) : (crtSum b rd bigM n sum l).Fits w := by
  induction l generalizing n sum with
  | nil => exact fits_oneResult ((Nat.mod_lt sum h0).trans hM)
  | cons p l ih =>
    simp only [crtSum]
    split
    · exact ih fun q hq => hl q (by simp [hq])
    · trivial
    · rename_i h
      exact absurd h (modinv_in_range _ (hl p (by simp)))

end Fits

/-- From a bank in `[0, 2^W)`, every result fits and neither S10 nor S11 occurs. -/
theorem commandResult_fits (i : Instr) {w : Width} {b : Bank} (drawn : List Word) (hb : b.fits w) :
    (commandResult i w b drawn).Fits w := by
  cases i <;> simp only [commandResult]
  case modmul rd ra rb rm =>
    unfold modmulResult
    split_ifs with h
    · trivial
    · exact fits_oneResult (mod_lt_bound hb rm _ h)
  case modpow rd rn re rm =>
    unfold modpowResult
    split_ifs with h
    · trivial
    · exact fits_oneResult (by rw [powmod_eq]; exact mod_lt_bound hb rm _ h)
  case gcd rd ra rb =>
    unfold gcdResult
    split_ifs with h
    · trivial
    · exact fits_oneResult (by rw [gcdEuclid_eq]; exact (Nat.gcd_le_left _ (Nat.pos_of_ne_zero h)).trans_lt (hb ra))
  case bgcd rd ra rb =>
    unfold bgcdResult
    split_ifs with h
    · trivial
    · exact fits_oneResult (by rw [gcdBalanced_eq]; exact (Nat.gcd_le_left _ (Nat.pos_of_ne_zero h)).trans_lt (hb ra))
  case xgcd rd ra rb =>
    simp only [xgcdResult]
    split_ifs with h1 h2 h3 h4
    · trivial
    · trivial
    · have := (Nat.gcd_le_left (b.read rb) (Nat.pos_of_ne_zero h2)).trans_lt (hb ra)
      simpa [CmdResult.Fits, bezoutStaged, xgcd_g, this] using h4
    · have hx := xgcd_bound (Nat.pos_of_ne_zero h2) (Nat.pos_of_ne_zero h3)
      exact h4 ⟨(hx.1.trans (Nat.div_le_self _ _)).trans_lt (hb rb), (hx.2.trans (Nat.div_le_self _ _)).trans_lt (hb ra)⟩
    · trivial
  case modinv rd rn rm =>
    unfold modinvResult
    split_ifs with h1 h2
    · trivial
    · trivial
    · split
      · rename_i u hu
        exact fits_oneResult ((modinv_found_lt hu).trans (hb rm))
      · trivial
      · rename_i hu
        exact absurd hu (modinv_in_range _ h2)
  case crt rd rx rm k =>
    unfold crtResult crtCompute
    split_ifs
    · trivial
    repeat' split
    all_goals try trivial
    rename_i hz _ hc
    refine fits_crtSum (modulusProduct_pos Nat.one_pos ?_) (modulusProduct_lt (one_lt_bound w) hc) ?_
    · intro r hr; simpa using firstBad_none.1 hz r hr
    · intro p hp; simpa using firstBad_none.1 hz p.2 (List.of_mem_zip hp).2
  case mrtestRandom rd rn rounds =>
    unfold mrtestRandomResult
    split_ifs
    · trivial
    · exact fits_mrTop fits_verdict
  case mrtestRegs rd rn rw rounds =>
    unfold mrtestRegsResult
    split_ifs
    · trivial
    · split
      · trivial
      · refine fits_mrTop ?_
        unfold witnessRounds
        split
        · trivial
        · exact fits_verdict
  case bitlen rd rn =>
    refine fits_oneResult ?_
    by_cases h : b.read rn = 0
    · rw [h]; exact one_lt_bound w
    · have hlt : b.read rn < 2 ^ w.bits := hb rn
      have := (Nat.pow_lt_pow_iff_right (by omega)).1 ((bitlen_spec h).1.trans_lt hlt)
      have := bits_lt_bound w
      omega
  case lsb rd rn =>
    unfold lsbResult
    split_ifs with h
    · trivial
    · refine fits_oneResult ?_
      obtain ⟨d, hd, _⟩ := lsb_spec h
      have hle : 2 ^ lsb (b.read rn) ≤ b.read rn := Nat.le_of_dvd (Nat.pos_of_ne_zero h) ⟨d, hd⟩
      exact (Nat.lt_two_pow_self.trans_le hle).trans (hb rn)

/-- From a bank in `[0, 2^W)` no command stops. -/
theorem commandResult_never_stops (i : Instr) {w : Width} {b : Bank} (drawn : List Word) (hb : b.fits w) (why : Fault) :
    commandResult i w b drawn ≠ .stop why := by
  intro h
  have := commandResult_fits i drawn hb
  rw [h] at this
  exact this

end Sys2Proof.Machine
end

