-- ==== Sys2Proof/Laws/Decode.lean ====
section
/-! SUPPORT. The fields of a command word: a word is the concatenation of its fields, and the fields of an assembled word are the
fields it was assembled from (30_encoding.md R121, R122). -/

namespace Sys2Proof

/-- The assembled word as a sum of its fields (R121). -/
theorem commandWord_toNat {opc imm : Nat} (rd rs1 rs2 rs3 : Reg) (ho : opc < 32) (hi : imm < 2048) :
    (commandWord opc rd rs1 rs2 rs3 imm).toNat =
      opc * 2 ^ 27 + rd.val * 2 ^ 23 + rs1.val * 2 ^ 19 + rs2.val * 2 ^ 15 + rs3.val * 2 ^ 11 + imm := by
  have or_add : ∀ (a b k : Nat), b < 2 ^ k → a * 2 ^ k ||| b = a * 2 ^ k + b := by
    intro a b k hb
    rw [← Nat.shiftLeft_eq, Nat.shiftLeft_add_eq_or_of_lt hb]
  have := rd.isLt; have := rs1.isLt; have := rs2.isLt; have := rs3.isLt
  simp only [commandWord, BitVec.toNat_or, BitVec.toNat_shiftLeft, BitVec.toNat_ofNat, Nat.shiftLeft_eq]
  rw [Nat.mod_eq_of_lt (by omega : opc < 2 ^ 32), Nat.mod_eq_of_lt (by omega : opc * 2 ^ 27 < 2 ^ 32),
    Nat.mod_eq_of_lt (by omega : rd.val < 2 ^ 32), Nat.mod_eq_of_lt (by omega : rd.val * 2 ^ 23 < 2 ^ 32),
    Nat.mod_eq_of_lt (by omega : rs1.val < 2 ^ 32), Nat.mod_eq_of_lt (by omega : rs1.val * 2 ^ 19 < 2 ^ 32),
    Nat.mod_eq_of_lt (by omega : rs2.val < 2 ^ 32), Nat.mod_eq_of_lt (by omega : rs2.val * 2 ^ 15 < 2 ^ 32),
    Nat.mod_eq_of_lt (by omega : rs3.val < 2 ^ 32), Nat.mod_eq_of_lt (by omega : rs3.val * 2 ^ 11 < 2 ^ 32),
    Nat.mod_eq_of_lt (by omega : imm < 2 ^ 32)]
  rw [or_add opc (rd.val * 2 ^ 23) 27 (by omega)]
  rw [show opc * 2 ^ 27 + rd.val * 2 ^ 23 = (opc * 16 + rd.val) * 2 ^ 23 by ring, or_add _ (rs1.val * 2 ^ 19) 23 (by omega)]
  rw [show (opc * 16 + rd.val) * 2 ^ 23 + rs1.val * 2 ^ 19 = ((opc * 16 + rd.val) * 16 + rs1.val) * 2 ^ 19 by ring,
    or_add _ (rs2.val * 2 ^ 15) 19 (by omega)]
  rw [show ((opc * 16 + rd.val) * 16 + rs1.val) * 2 ^ 19 + rs2.val * 2 ^ 15
      = (((opc * 16 + rd.val) * 16 + rs1.val) * 16 + rs2.val) * 2 ^ 15 by ring, or_add _ (rs3.val * 2 ^ 11) 15 (by omega)]
  rw [show (((opc * 16 + rd.val) * 16 + rs1.val) * 16 + rs2.val) * 2 ^ 15 + rs3.val * 2 ^ 11
      = ((((opc * 16 + rd.val) * 16 + rs1.val) * 16 + rs2.val) * 16 + rs3.val) * 2 ^ 11 by ring, or_add _ imm 11 (by omega)]

/-- A field is a quotient and a remainder of the word (R16, R122). -/
theorem extract_toNat (w : Word) (lo len : Nat) : (w.extractLsb' lo len).toNat = w.toNat / 2 ^ lo % 2 ^ len := by
  rw [BitVec.extractLsb'_toNat, Nat.shiftRight_eq_div_pow]

/-- The fields of a word, as numbers (R122, R124). -/
theorem field_values (w : Word) :
    (fieldOpc w).toNat = w.toNat / 2 ^ 27 % 32 ∧ (fieldRd w).val = w.toNat / 2 ^ 23 % 16 ∧
    (fieldRs1 w).val = w.toNat / 2 ^ 19 % 16 ∧ (fieldRs2 w).val = w.toNat / 2 ^ 15 % 16 ∧
    (fieldRs3 w).val = w.toNat / 2 ^ 11 % 16 ∧ fieldK w = w.toNat % 16 ∧ fieldRounds w = w.toNat % 1024 := by
  simp [fieldOpc, fieldRd, fieldRs1, fieldRs2, fieldRs3, fieldK, fieldRounds, Nat.shiftRight_eq_div_pow]

/-- A word masked to bits 27 to 31 and bits `lo` to `hi - 1`, as a number: what every mask of R126 keeps. -/
theorem mask_opc_and_range (w : Word) {lo hi : Nat} (hlo : lo ≤ hi) (hhi : hi ≤ 27) :
    w.toNat &&& (2 ^ 27 * 31 + 2 ^ lo * (2 ^ (hi - lo) - 1)) =
      2 ^ 27 * (w.toNat / 2 ^ 27) + 2 ^ lo * (w.toNat / 2 ^ lo % 2 ^ (hi - lo)) := by
  have hw : w.toNat < 2 ^ 32 := w.isLt
  have hpow : 2 ^ lo * 2 ^ (hi - lo) ≤ 2 ^ 27 := by
    rw [← pow_add]; exact Nat.pow_le_pow_right (by omega) (by omega)
  have below : ∀ c < 2 ^ (hi - lo), 2 ^ lo * c < 2 ^ 27 := fun c hc =>
    lt_of_lt_of_le (Nat.mul_lt_mul_of_pos_left hc (Nat.two_pow_pos lo)) hpow
  apply Nat.eq_of_testBit_eq
  intro i
  rw [Nat.testBit_and, Nat.testBit_two_pow_mul_add _ (below _ (Nat.sub_lt (Nat.two_pow_pos _) one_pos)),
    Nat.testBit_two_pow_mul_add _ (below _ (Nat.mod_lt _ (Nat.two_pow_pos _))), Nat.testBit_two_pow_mul,
    Nat.testBit_two_pow_mul, Nat.testBit_two_pow_sub_one, Nat.testBit_mod_two_pow, Nat.testBit_div_two_pow,
    Nat.testBit_div_two_pow]
  by_cases h : i < 27
  · by_cases h2 : lo ≤ i
    · simp [h, h2, Bool.and_comm]
    · simp [h, h2]
  · simp only [h, if_false, show i - 27 + 27 = i by omega]
    by_cases h5 : i < 32
    · rw [show (31 : Nat) = 2 ^ 5 - 1 by rfl, Nat.testBit_two_pow_sub_one]
      simp; omega
    · rw [Nat.testBit_lt_two_pow (lt_of_lt_of_le hw (Nat.pow_le_pow_right (by omega) (by omega)))]; simp

/-- A row selects a word exactly when the opcode and the fixed bits `lo` to `hi - 1` have the row's values (R126). -/
theorem selects_iff (r : EncodingRow) (w : Word) {lo hi opc fixed : Nat} (hlo : lo ≤ hi) (hhi : hi ≤ 27)
    (hmask : r.mask.toNat = 2 ^ 27 * 31 + 2 ^ lo * (2 ^ (hi - lo) - 1))
    (hpattern : r.pattern.toNat = 2 ^ 27 * opc + 2 ^ lo * fixed) (hfixed : fixed < 2 ^ (hi - lo)) :
    r.selects w = true ↔ w.toNat / 2 ^ 27 = opc ∧ w.toNat / 2 ^ lo % 2 ^ (hi - lo) = fixed := by
  have hpow : 2 ^ lo * 2 ^ (hi - lo) ≤ 2 ^ 27 := by
    rw [← pow_add]; exact Nat.pow_le_pow_right (by omega) (by omega)
  have below : ∀ c < 2 ^ (hi - lo), 2 ^ lo * c < 2 ^ 27 := fun c hc =>
    lt_of_lt_of_le (Nat.mul_lt_mul_of_pos_left hc (Nat.two_pow_pos lo)) hpow
  have hrange := below _ (Nat.mod_lt (w.toNat / 2 ^ lo) (Nat.two_pow_pos (hi - lo)))
  have hfix := below _ hfixed
  rw [EncodingRow.selects, beq_iff_eq, ← BitVec.toNat_inj, BitVec.toNat_and, hmask, hpattern,
    mask_opc_and_range w hlo hhi]
  constructor
  · intro h
    have h1 : w.toNat / 2 ^ 27 = opc := by omega
    refine ⟨h1, Nat.eq_of_mul_eq_mul_left (Nat.two_pow_pos lo) ?_⟩
    omega
  · rintro ⟨rfl, rfl⟩; rfl

/-- One row of the decoder's search (R127). -/
theorem decodeBy_cons {r : EncodingRow} {rest : List EncodingRow} {w : Word} {P : Prop} [Decidable P]
    (h : r.selects w = true ↔ P) :
    decodeBy (r :: rest) w = if P then .command (r.build w) else decodeBy rest w := by
  simp only [decodeBy, h]

/-- What the decoder does, by the opcode and the fixed bits of each row (R126, R127). -/
theorem decode_eq (w : Word) : decode w =
    if w.toNat / 2 ^ 27 = 1 ∧ w.toNat % 2 ^ 11 = 0 then .command (.modmul (fieldRd w) (fieldRs1 w) (fieldRs2 w) (fieldRs3 w))
    else if w.toNat / 2 ^ 27 = 2 ∧ w.toNat % 2 ^ 11 = 0 then
      .command (.modpow (fieldRd w) (fieldRs1 w) (fieldRs2 w) (fieldRs3 w))
    else if w.toNat / 2 ^ 27 = 3 ∧ w.toNat % 2 ^ 15 = 0 then .command (.gcd (fieldRd w) (fieldRs1 w) (fieldRs2 w))
    else if w.toNat / 2 ^ 27 = 4 ∧ w.toNat % 2 ^ 15 = 0 then .command (.bgcd (fieldRd w) (fieldRs1 w) (fieldRs2 w))
    else if w.toNat / 2 ^ 27 = 5 ∧ w.toNat % 2 ^ 15 = 0 then .command (.xgcd (fieldRd w) (fieldRs1 w) (fieldRs2 w))
    else if w.toNat / 2 ^ 27 = 6 ∧ w.toNat % 2 ^ 15 = 0 then .command (.modinv (fieldRd w) (fieldRs1 w) (fieldRs2 w))
    else if w.toNat / 2 ^ 27 = 7 ∧ w.toNat / 2 ^ 4 % 2 ^ 11 = 0 then
      .command (.crt (fieldRd w) (fieldRs1 w) (fieldRs2 w) (fieldK w))
    else if w.toNat / 2 ^ 27 = 8 ∧ w.toNat / 2 ^ 10 % 2 ^ 9 = 0 then
      .command (.mrtestRandom (fieldRd w) (fieldRs1 w) (fieldRounds w))
    else if w.toNat / 2 ^ 27 = 8 ∧ w.toNat / 2 ^ 10 % 2 ^ 5 = 1 then
      .command (.mrtestRegs (fieldRd w) (fieldRs1 w) (fieldRs2 w) (fieldRounds w))
    else if w.toNat / 2 ^ 27 = 9 ∧ w.toNat % 2 ^ 19 = 0 then .command (.bitlen (fieldRd w) (fieldRs1 w))
    else if w.toNat / 2 ^ 27 = 10 ∧ w.toNat % 2 ^ 19 = 0 then .command (.lsb (fieldRd w) (fieldRs1 w))
    else if w.toNat / 2 ^ 27 = 0 ∨ 11 ≤ w.toNat / 2 ^ 27 then .illegal .reservedOpcode
    else .illegal .reservedField := by
  have zero : ∀ m : Nat, w.toNat / 2 ^ 0 % m = w.toNat % m := fun m => by rw [pow_zero, Nat.div_one]
  have hopc : reservedOpcode (fieldOpc w) = true ↔ w.toNat / 2 ^ 27 = 0 ∨ 11 ≤ w.toNat / 2 ^ 27 := by
    have h1 := (field_values w).1
    have hw : w.toNat < 2 ^ 32 := w.isLt
    rw [Nat.mod_eq_of_lt (by omega)] at h1
    simp only [reservedOpcode, Bool.or_eq_true, beq_iff_eq, decide_eq_true_eq, ← h1, ← BitVec.toNat_inj]
    rfl
  unfold decode encodingRows
  rw [decodeBy_cons (selects_iff _ w (lo := 0) (hi := 11) (opc := 1) (fixed := 0) (by omega) (by omega) rfl rfl (by omega)),
    decodeBy_cons (selects_iff _ w (lo := 0) (hi := 11) (opc := 2) (fixed := 0) (by omega) (by omega) rfl rfl (by omega)),
    decodeBy_cons (selects_iff _ w (lo := 0) (hi := 15) (opc := 3) (fixed := 0) (by omega) (by omega) rfl rfl (by omega)),
    decodeBy_cons (selects_iff _ w (lo := 0) (hi := 15) (opc := 4) (fixed := 0) (by omega) (by omega) rfl rfl (by omega)),
    decodeBy_cons (selects_iff _ w (lo := 0) (hi := 15) (opc := 5) (fixed := 0) (by omega) (by omega) rfl rfl (by omega)),
    decodeBy_cons (selects_iff _ w (lo := 0) (hi := 15) (opc := 6) (fixed := 0) (by omega) (by omega) rfl rfl (by omega)),
    decodeBy_cons (selects_iff _ w (lo := 4) (hi := 15) (opc := 7) (fixed := 0) (by omega) (by omega) rfl rfl (by omega)),
    decodeBy_cons (selects_iff _ w (lo := 10) (hi := 19) (opc := 8) (fixed := 0) (by omega) (by omega) rfl rfl (by omega)),
    decodeBy_cons (selects_iff _ w (lo := 10) (hi := 15) (opc := 8) (fixed := 1) (by omega) (by omega) rfl rfl (by omega)),
    decodeBy_cons (selects_iff _ w (lo := 0) (hi := 19) (opc := 9) (fixed := 0) (by omega) (by omega) rfl rfl (by omega)),
    decodeBy_cons (selects_iff _ w (lo := 0) (hi := 19) (opc := 10) (fixed := 0) (by omega) (by omega) rfl rfl (by omega))]
  simp only [decodeBy, zero, hopc, Nat.sub_zero]

/-- The decoder's cases, each with the opcode and the fixed bits that select it (R126, R127). -/
theorem decode_cases (w : Word) :
    ((w.toNat / 2 ^ 27 = 1 ∧ w.toNat % 2 ^ 11 = 0) ∧ decode w = .command (.modmul (fieldRd w) (fieldRs1 w) (fieldRs2 w) (fieldRs3 w))) ∨
    ((w.toNat / 2 ^ 27 = 2 ∧ w.toNat % 2 ^ 11 = 0) ∧ decode w = .command (.modpow (fieldRd w) (fieldRs1 w) (fieldRs2 w) (fieldRs3 w))) ∨
    ((w.toNat / 2 ^ 27 = 3 ∧ w.toNat % 2 ^ 15 = 0) ∧ decode w = .command (.gcd (fieldRd w) (fieldRs1 w) (fieldRs2 w))) ∨
    ((w.toNat / 2 ^ 27 = 4 ∧ w.toNat % 2 ^ 15 = 0) ∧ decode w = .command (.bgcd (fieldRd w) (fieldRs1 w) (fieldRs2 w))) ∨
    ((w.toNat / 2 ^ 27 = 5 ∧ w.toNat % 2 ^ 15 = 0) ∧ decode w = .command (.xgcd (fieldRd w) (fieldRs1 w) (fieldRs2 w))) ∨
    ((w.toNat / 2 ^ 27 = 6 ∧ w.toNat % 2 ^ 15 = 0) ∧ decode w = .command (.modinv (fieldRd w) (fieldRs1 w) (fieldRs2 w))) ∨
    ((w.toNat / 2 ^ 27 = 7 ∧ w.toNat / 2 ^ 4 % 2 ^ 11 = 0) ∧ decode w = .command (.crt (fieldRd w) (fieldRs1 w) (fieldRs2 w) (fieldK w))) ∨
    ((w.toNat / 2 ^ 27 = 8 ∧ w.toNat / 2 ^ 10 % 2 ^ 9 = 0) ∧ decode w = .command (.mrtestRandom (fieldRd w) (fieldRs1 w) (fieldRounds w))) ∨
    ((w.toNat / 2 ^ 27 = 8 ∧ w.toNat / 2 ^ 10 % 2 ^ 5 = 1) ∧ decode w = .command (.mrtestRegs (fieldRd w) (fieldRs1 w) (fieldRs2 w) (fieldRounds w))) ∨
    ((w.toNat / 2 ^ 27 = 9 ∧ w.toNat % 2 ^ 19 = 0) ∧ decode w = .command (.bitlen (fieldRd w) (fieldRs1 w))) ∨
    ((w.toNat / 2 ^ 27 = 10 ∧ w.toNat % 2 ^ 19 = 0) ∧ decode w = .command (.lsb (fieldRd w) (fieldRs1 w))) ∨
    ((w.toNat / 2 ^ 27 = 0 ∨ 11 ≤ w.toNat / 2 ^ 27) ∧ decode w = .illegal .reservedOpcode) ∨
    ((1 ≤ w.toNat / 2 ^ 27 ∧ w.toNat / 2 ^ 27 ≤ 10) ∧ decode w = .illegal .reservedField) := by
  have e := decode_eq w
  by_cases h : w.toNat / 2 ^ 27 = 1 ∧ w.toNat % 2 ^ 11 = 0
  · rw [if_pos h] at e; exact .inl ⟨h, e⟩
  rw [if_neg h] at e; clear h; right
  by_cases h : w.toNat / 2 ^ 27 = 2 ∧ w.toNat % 2 ^ 11 = 0
  · rw [if_pos h] at e; exact .inl ⟨h, e⟩
  rw [if_neg h] at e; clear h; right
  by_cases h : w.toNat / 2 ^ 27 = 3 ∧ w.toNat % 2 ^ 15 = 0
  · rw [if_pos h] at e; exact .inl ⟨h, e⟩
  rw [if_neg h] at e; clear h; right
  by_cases h : w.toNat / 2 ^ 27 = 4 ∧ w.toNat % 2 ^ 15 = 0
  · rw [if_pos h] at e; exact .inl ⟨h, e⟩
  rw [if_neg h] at e; clear h; right
  by_cases h : w.toNat / 2 ^ 27 = 5 ∧ w.toNat % 2 ^ 15 = 0
  · rw [if_pos h] at e; exact .inl ⟨h, e⟩
  rw [if_neg h] at e; clear h; right
  by_cases h : w.toNat / 2 ^ 27 = 6 ∧ w.toNat % 2 ^ 15 = 0
  · rw [if_pos h] at e; exact .inl ⟨h, e⟩
  rw [if_neg h] at e; clear h; right
  by_cases h : w.toNat / 2 ^ 27 = 7 ∧ w.toNat / 2 ^ 4 % 2 ^ 11 = 0
  · rw [if_pos h] at e; exact .inl ⟨h, e⟩
  rw [if_neg h] at e; clear h; right
  by_cases h : w.toNat / 2 ^ 27 = 8 ∧ w.toNat / 2 ^ 10 % 2 ^ 9 = 0
  · rw [if_pos h] at e; exact .inl ⟨h, e⟩
  rw [if_neg h] at e; clear h; right
  by_cases h : w.toNat / 2 ^ 27 = 8 ∧ w.toNat / 2 ^ 10 % 2 ^ 5 = 1
  · rw [if_pos h] at e; exact .inl ⟨h, e⟩
  rw [if_neg h] at e; clear h; right
  by_cases h : w.toNat / 2 ^ 27 = 9 ∧ w.toNat % 2 ^ 19 = 0
  · rw [if_pos h] at e; exact .inl ⟨h, e⟩
  rw [if_neg h] at e; clear h; right
  by_cases h : w.toNat / 2 ^ 27 = 10 ∧ w.toNat % 2 ^ 19 = 0
  · rw [if_pos h] at e; exact .inl ⟨h, e⟩
  rw [if_neg h] at e; clear h; right
  by_cases h : w.toNat / 2 ^ 27 = 0 ∨ 11 ≤ w.toNat / 2 ^ 27
  · rw [if_pos h] at e; exact .inl ⟨h, e⟩
  · rw [if_neg h] at e; exact .inr ⟨by omega, e⟩

end Sys2Proof
end

