-- ==== Sys2Proof/Laws/HostPort.lean ====
section
/-! SUPPORT. The address map in plain numbers: which addresses are reserved, which select a window word, and that a window write
keeps the bank in range (20_memory.md R80 to R85). -/

namespace Sys2Proof.Machine

/-- The bytes and words of an operand, and the size of the window (R9, R82). -/
theorem width_sizes (w : Width) :
    w.bytes = 4 * w.words ∧ w.bits = 32 * w.words ∧ 2 ≤ w.words ∧ 16 * w.bytes ≤ 0x8000 := by
  cases w <;> decide

/-- Past the control and status registers an address is a window word or reserved (R82). -/
theorem targetOf_high {w : Width} {a : Addr} (h : 0x18 ≤ a.toNat) :
    targetOf w a = if windowBase ≤ a.toNat then windowTarget w a.toNat else .reserved := by
  unfold targetOf
  rw [if_neg, if_neg, if_neg, if_neg, if_neg, if_neg] <;> (rintro rfl; revert h; decide)

/-- The reserved ranges of R82. -/
theorem targetOf_reserved {w : Width} {a : Addr}
    (h : (0x18 ≤ a.toNat ∧ a.toNat < 0x8000) ∨ 0x8000 + 16 * w.bytes ≤ a.toNat) : targetOf w a = .reserved := by
  obtain ⟨h1, h2, h3, h4⟩ := width_sizes w
  rw [targetOf_high (by omega)]
  rcases h with h | h
  · rw [if_neg (by simp only [windowBase]; omega)]
  · rw [if_pos (by simp only [windowBase]; omega), windowTarget, dif_neg]
    simp only [windowBase]
    rw [Nat.not_lt, Nat.le_div_iff_mul_le (by omega)]
    omega

/-- The address of word `j` of register `r` selects it, and is aligned (R84). -/
theorem targetOf_window {w : Width} {a : Addr} {r : Reg} {j : Nat} (hj : j < w.words)
    (ha : a.toNat = 0x8000 + r.val * w.bytes + 4 * j) : targetOf w a = .window r j ∧ a.toNat % 4 = 0 := by
  obtain ⟨h1, h2, h3, h4⟩ := width_sizes w
  constructor
  · have e : a.toNat - windowBase = 4 * j + w.bytes * r.val := by
      rw [ha, windowBase, Nat.mul_comm w.bytes]; omega
    have hr : (a.toNat - windowBase) / w.bytes = r.val := by
      rw [e, Nat.add_mul_div_left _ _ (by omega), Nat.div_eq_of_lt (by omega), Nat.zero_add]
    have hm : (a.toNat - windowBase) % w.bytes = 4 * j := by
      rw [e, Nat.add_mul_mod_self_left, Nat.mod_eq_of_lt (by omega)]
    rw [targetOf_high (by omega), if_pos (by simp only [windowBase]; omega), windowTarget]
    generalize a.toNat - windowBase = d at hr hm ⊢
    rw [dif_pos (by omega), hm, Nat.mul_div_cancel_left _ (by omega)]
    exact congrArg (fun q => Target.window q j) (Fin.ext hr)
  · rw [ha, h1, show r.val * (4 * w.words) = 4 * (r.val * w.words) by ring]
    omega

/-- The sixteen-bit window address does not wrap (R80, R84). -/
theorem windowAddr_toNat {w : Width} {r : Reg} {j : Nat} (hj : j < w.words) :
    (BitVec.ofNat 16 (0x8000 + r.val * w.bytes + 4 * j)).toNat = 0x8000 + r.val * w.bytes + 4 * j := by
  obtain ⟨h1, h2, h3, h4⟩ := width_sizes w
  have : r.val * w.bytes ≤ 15 * w.bytes := Nat.mul_le_mul_right _ (by omega)
  rw [BitVec.toNat_ofNat]
  exact Nat.mod_eq_of_lt (by omega)

/-- Only addresses of the window select a window word, and its index is below WORDS (R84). -/
theorem targetOf_window_range {w : Width} {a : Addr} {r : Reg} {j : Nat} (h : targetOf w a = .window r j) :
    0x8000 ≤ a.toNat ∧ a.toNat < 0x8000 + 16 * w.bytes ∧ j < w.words := by
  obtain ⟨h1, h2, h3, h4⟩ := width_sizes w
  unfold targetOf windowTarget at h
  (repeat' split at h) <;> first | (cases h; done) | skip
  rename_i hb hr
  simp only [Target.window.injEq] at h
  simp only [windowBase] at hb hr h
  have hd := Nat.div_add_mod (a.toNat - 32768) w.bytes
  have hm := Nat.mod_lt (a.toNat - 32768) (show 0 < w.bytes by omega)
  rw [Nat.div_lt_iff_lt_mul (by omega)] at hr
  omega

/-- A window write keeps the register in `[0, 2^W)` (R30, R85). -/
theorem setOperandWord_lt {v j : Nat} {d : Word} {w : Width} (hv : v < w.bound) (hj : j < w.words) :
    setOperandWord v j d < w.bound := by
  obtain ⟨h1, h2, h3, h4⟩ := width_sizes w
  refine Nat.lt_pow_two_of_testBit _ fun i hi => ?_
  rw [setOperandWord_testBit, if_neg (by omega)]
  exact Nat.testBit_lt_two_pow (hv.trans_le (Nat.pow_le_pow_right (by decide) hi))

end Sys2Proof.Machine
end

