-- ==== Sys2Proof/Laws/MillerRabin.lean ====
section
/-! SUPPORT. What a Miller-Rabin round decides and what the witness draw takes from the words received, in plain arithmetic
(46_miller_rabin_primality_tester.md R243 to R247). -/

namespace Sys2Proof.Machine

/-- The squarings pass exactly when one of them is `n - 1` (R243, R244). -/
theorem squaringsPass_iff {n count y : Nat} :
    squaringsPass n count y = true ↔ ∃ r, 1 ≤ r ∧ r ≤ count ∧ y ^ 2 ^ r % n = n - 1 := by
  induction count generalizing y with
  | zero =>
    simp only [squaringsPass, Bool.false_eq_true, false_iff, not_exists]
    rintro r ⟨h1, h2, _⟩
    omega
  | succ count ih =>
    have hp : ∀ r, mulmod y y n ^ 2 ^ r % n = y ^ 2 ^ (r + 1) % n := by
      intro r
      rw [mulmod, Nat.pow_mod, Nat.mod_mod, ← Nat.pow_mod, ← pow_two, ← pow_mul, pow_succ']
    simp only [squaringsPass]
    split
    · rename_i h
      exact iff_of_true rfl ⟨1, by omega, by omega, by rw [← h, mulmod]; ring_nf⟩
    · rename_i h
      rw [ih]
      constructor
      · rintro ⟨r, h1, h2, h3⟩
        exact ⟨r + 1, by omega, by omega, by rw [← hp]; exact h3⟩
      · rintro ⟨r, h1, h2, h3⟩
        obtain ⟨r, rfl⟩ : ∃ q, r = q + 1 := ⟨r - 1, by omega⟩
        rcases Nat.eq_zero_or_pos r with rfl | hr
        · exact absurd (by rw [← h3, mulmod]; ring_nf) h
        · exact ⟨r, hr, by omega, by rw [hp]; exact h3⟩

/-- A round in plain arithmetic (R240, R243): with `n - 1 = 2^s · d` split by `lsb`, the power `a^d` is 1, or it or one of its next
`s - 1` squarings is `n - 1`. -/
theorem witnessPasses_iff {n a : Nat} : witnessPasses n a = true ↔
    a ^ ((n - 1) / 2 ^ lsb (n - 1)) % n = 1 ∨
    ∃ r < max (lsb (n - 1)) 1, a ^ (2 ^ r * ((n - 1) / 2 ^ lsb (n - 1))) % n = n - 1 := by
  generalize hd : (n - 1) / 2 ^ lsb (n - 1) = d
  have hpow : ∀ r, (a ^ d % n) ^ 2 ^ r % n = a ^ (2 ^ r * d) % n := by
    intro r
    rw [← Nat.pow_mod, ← pow_mul, Nat.mul_comm]
  simp only [witnessPasses, powmod_eq, hd]
  split
  · rename_i h
    refine iff_of_true rfl ?_
    rcases h with h | h
    · exact .inl h
    · exact .inr ⟨0, by omega, by simpa using h⟩
  · rename_i h
    rw [squaringsPass_iff]
    constructor
    · rintro ⟨r, h1, h2, h3⟩
      exact .inr ⟨r, by omega, by rw [← hpow]; exact h3⟩
    · rintro (h1 | ⟨r, hr, h3⟩)
      · exact absurd (.inl h1) h
      · rcases Nat.eq_zero_or_pos r with rfl | hpos
        · exact absurd (.inr (by simpa using h3)) h
        · exact ⟨r, hpos, by omega, by rw [hpow]; exact h3⟩

/-- The range check of a witness register (R242, R246). -/
theorem witnessOutOfRange_iff {n a : Nat} : witnessOutOfRange n a = true ↔ a < 2 ∨ n - 2 < a := by
  simp [witnessOutOfRange]

theorem witnessOutOfRange_false {n a : Nat} : witnessOutOfRange n a = false ↔ 2 ≤ a ∧ a ≤ n - 2 := by
  simp [witnessOutOfRange]
  omega

/-- For `n ≥ 4` MRTEST runs its rounds (R242). -/
theorem mrTop_large {b : Bank} {rd rn : Reg} {r : CmdResult} (h : 4 ≤ b.read rn) : mrTop b rd rn r = r := by
  unfold mrTop
  rw [if_neg (by omega), if_neg (by omega), if_neg (by omega)]

/-- Every round passing (R243). -/
theorem roundsWith_prime {n i : Nat} {ws : List Nat} (h : ∀ a ∈ ws, witnessPasses n a = true) :
    roundsWith n i ws = .prime := by
  induction ws generalizing i with
  | nil => rfl
  | cons a ws ih => rw [roundsWith, if_pos (h a (by simp)), ih fun b hb => h b (by simp [hb])]

/-- The first round that fails (R243). -/
theorem roundsWith_composite {n i a : Nat} {pre post : List Nat} (hpre : ∀ b ∈ pre, witnessPasses n b = true)
    (ha : ¬ witnessPasses n a = true) : roundsWith n i (pre ++ a :: post) = .composite (i + pre.length) := by
  induction pre generalizing i with
  | nil => simp [roundsWith, ha]
  | cons b pre ih =>
    rw [List.cons_append, roundsWith, if_pos (hpre b (by simp)), ih fun c hc => hpre c (by simp [hc])]
    simp; omega

/-- An attempt takes at least one word (R247). -/
theorem wordsPerAttempt_pos (n : Nat) : 1 ≤ wordsPerAttempt n := by
  have : 1 ≤ bitlen (witnessSpan n) := by unfold bitlen; split <;> omega
  unfold wordsPerAttempt
  omega

/-- Too few words for an attempt (R247). -/
theorem takeWords_none {nw : Nat} {ws : List Word} (h : ws.length < nw) : takeWords nw ws = none := by
  induction nw generalizing ws with
  | zero => omega
  | succ nw ih =>
    cases ws with
    | nil => rfl
    | cons w ws => simp [takeWords, ih (by simpa using h : ws.length < nw)]

/-- A witness drawn lies in `[2, n - 2]` (R247). -/
theorem drawAttempts_range {n attempts : Nat} {ws rest : List Word} {a : Nat} (hn : 4 ≤ n)
    (h : drawAttempts n attempts ws = some (a, rest)) : 2 ≤ a ∧ a ≤ n - 2 := by
  induction attempts generalizing ws with
  | zero => simp [drawAttempts] at h
  | succ attempts ih =>
    rw [drawAttempts] at h
    split at h
    · cases h
    · split at h
      · rename_i hle
        simp only [Option.some.injEq, Prod.mk.injEq] at h
        simp only [witnessSpan] at hle h
        omega
      · exact ih h

end Sys2Proof.Machine
end

