-- ==== Sys2Proof/Laws/PerInstr.lean ====
section
/-! SUPPORT. Statements made per command. Family `EncodeSelectsItsRow`: the word of a well-formed command is selected by its own
row of the encoding table (30_encoding.md R126). -/

namespace Sys2Proof.Laws.EncodeSelectsItsRow

/-- The match and mask values of a command's row (R126). -/
def matchMask : Instr → Word × Word
  | .modmul _ _ _ _ => (0x08000000#32, 0xF80007FF#32)
  | .modpow _ _ _ _ => (0x10000000#32, 0xF80007FF#32)
  | .gcd _ _ _ => (0x18000000#32, 0xF8007FFF#32)
  | .bgcd _ _ _ => (0x20000000#32, 0xF8007FFF#32)
  | .xgcd _ _ _ => (0x28000000#32, 0xF8007FFF#32)
  | .modinv _ _ _ => (0x30000000#32, 0xF8007FFF#32)
  | .crt _ _ _ _ => (0x38000000#32, 0xF8007FF0#32)
  | .mrtestRandom _ _ _ => (0x40000000#32, 0xF807FC00#32)
  | .mrtestRegs _ _ _ _ => (0x40000400#32, 0xF8007C00#32)
  | .bitlen _ _ => (0x48000000#32, 0xF807FFFF#32)
  | .lsb _ _ => (0x50000000#32, 0xF807FFFF#32)

/-- A well-formed command's word has its row's match value under its row's mask. -/
def Statement (i : Instr) : Prop := i.wellFormed = true → encode i &&& (matchMask i).2 = (matchMask i).1

/-- A word built from its fields, under a mask that keeps the opcode and the bits `lo` to `hi - 1` (R121, R126). -/
theorem masked {pattern mask w : Word} {lo hi opc fixed : Nat} (hlo : lo ≤ hi) (hhi : hi ≤ 27)
    (hmask : mask.toNat = 2 ^ 27 * 31 + 2 ^ lo * (2 ^ (hi - lo) - 1))
    (hpattern : pattern.toNat = 2 ^ 27 * opc + 2 ^ lo * fixed) (hfixed : fixed < 2 ^ (hi - lo))
    (h : w.toNat / 2 ^ 27 = opc ∧ w.toNat / 2 ^ lo % 2 ^ (hi - lo) = fixed) : w &&& mask = pattern := by
  have := (selects_iff ⟨pattern, mask, fun _ => .bitlen 0 0⟩ w hlo hhi hmask hpattern hfixed).2 h
  simpa [EncodingRow.selects] using this

/-- The opcode and the low bits of a word built from its fields (R121). -/
theorem fields {opc imm : Nat} (rd rs1 rs2 rs3 : Reg) (ho : opc < 32) (hi : imm < 2048) (lo len : Nat) :
    (commandWord opc rd rs1 rs2 rs3 imm).toNat / 2 ^ 27 = opc ∧
    (commandWord opc rd rs1 rs2 rs3 imm).toNat / 2 ^ lo % 2 ^ len
      = (opc * 2 ^ 27 + rd.val * 2 ^ 23 + rs1.val * 2 ^ 19 + rs2.val * 2 ^ 15 + rs3.val * 2 ^ 11 + imm) / 2 ^ lo % 2 ^ len := by
  have := rd.isLt; have := rs1.isLt; have := rs2.isLt; have := rs3.isLt
  rw [commandWord_toNat rd rs1 rs2 rs3 ho hi]
  exact ⟨by omega, rfl⟩

/-- WSRC set above a round count (R124, R131). -/
theorem wsrc_or {rounds : Nat} (h : rounds < 1024) : wsrcBit ||| rounds = 1024 + rounds := by
  have := Nat.shiftLeft_add_eq_or_of_lt (show rounds < 2 ^ 10 by omega) 1
  simpa [wsrcBit] using this.symm

theorem modmul (rd ra rb rm : Reg) : Statement (.modmul rd ra rb rm) := fun _ =>
  masked (lo := 0) (hi := 11) (opc := 1) (fixed := 0) (by omega) (by omega) rfl rfl (by omega)
    (by have h := fields rd ra rb rm (opc := 1) (imm := 0) (by omega) (by omega) 0 11; simp only [encode]; omega)

theorem modpow (rd rn re rm : Reg) : Statement (.modpow rd rn re rm) := fun _ =>
  masked (lo := 0) (hi := 11) (opc := 2) (fixed := 0) (by omega) (by omega) rfl rfl (by omega)
    (by have h := fields rd rn re rm (opc := 2) (imm := 0) (by omega) (by omega) 0 11; simp only [encode]; omega)

theorem gcd (rd ra rb : Reg) : Statement (.gcd rd ra rb) := fun _ =>
  masked (lo := 0) (hi := 15) (opc := 3) (fixed := 0) (by omega) (by omega) rfl rfl (by omega)
    (by have h := fields rd ra rb 0 (opc := 3) (imm := 0) (by omega) (by omega) 0 15; simp only [encode]; simp at h ⊢; omega)

theorem bgcd (rd ra rb : Reg) : Statement (.bgcd rd ra rb) := fun _ =>
  masked (lo := 0) (hi := 15) (opc := 4) (fixed := 0) (by omega) (by omega) rfl rfl (by omega)
    (by have h := fields rd ra rb 0 (opc := 4) (imm := 0) (by omega) (by omega) 0 15; simp only [encode]; simp at h ⊢; omega)

theorem xgcd (rd ra rb : Reg) : Statement (.xgcd rd ra rb) := fun _ =>
  masked (lo := 0) (hi := 15) (opc := 5) (fixed := 0) (by omega) (by omega) rfl rfl (by omega)
    (by have h := fields rd ra rb 0 (opc := 5) (imm := 0) (by omega) (by omega) 0 15; simp only [encode]; simp at h ⊢; omega)

theorem modinv (rd rn rm : Reg) : Statement (.modinv rd rn rm) := fun _ =>
  masked (lo := 0) (hi := 15) (opc := 6) (fixed := 0) (by omega) (by omega) rfl rfl (by omega)
    (by have h := fields rd rn rm 0 (opc := 6) (imm := 0) (by omega) (by omega) 0 15; simp only [encode]; simp at h ⊢; omega)

theorem crt (rd rx rm : Reg) (k : Nat) : Statement (.crt rd rx rm k) := fun hw => by
  have hk : k < 16 := by simpa [Instr.wellFormed] using hw
  exact masked (lo := 4) (hi := 15) (opc := 7) (fixed := 0) (by omega) (by omega) rfl rfl (by omega)
    (by have h := fields rd rx rm 0 (opc := 7) (imm := k) (by omega) (by omega) 4 11; simp only [encode]; simp at h ⊢; omega)

theorem mrtestRandom (rd rn : Reg) (rounds : Nat) : Statement (.mrtestRandom rd rn rounds) := fun hw => by
  have hk : rounds < 1024 := by simpa [Instr.wellFormed] using hw
  exact masked (lo := 10) (hi := 19) (opc := 8) (fixed := 0) (by omega) (by omega) rfl rfl (by omega)
    (by have h := fields rd rn 0 0 (opc := 8) (imm := rounds) (by omega) (by omega) 10 9; simp only [encode]; simp at h ⊢; omega)

theorem mrtestRegs (rd rn rw : Reg) (rounds : Nat) : Statement (.mrtestRegs rd rn rw rounds) := fun hw => by
  have hk : rounds < 1024 := by simpa [Instr.wellFormed] using hw
  exact masked (lo := 10) (hi := 15) (opc := 8) (fixed := 1) (by omega) (by omega) rfl rfl (by omega)
    (by
      have h := fields rd rn rw 0 (opc := 8) (imm := 1024 + rounds) (by omega) (by omega) 10 5
      simp only [encode, wsrc_or hk]; simp at h ⊢; omega)

theorem bitlen (rd rn : Reg) : Statement (.bitlen rd rn) := fun _ =>
  masked (lo := 0) (hi := 19) (opc := 9) (fixed := 0) (by omega) (by omega) rfl rfl (by omega)
    (by have h := fields rd rn 0 0 (opc := 9) (imm := 0) (by omega) (by omega) 0 19; simp only [encode]; simp at h ⊢; omega)

theorem lsb (rd rn : Reg) : Statement (.lsb rd rn) := fun _ =>
  masked (lo := 0) (hi := 19) (opc := 10) (fixed := 0) (by omega) (by omega) rfl rfl (by omega)
    (by have h := fields rd rn 0 0 (opc := 10) (imm := 0) (by omega) (by omega) 0 19; simp only [encode]; simp at h ⊢; omega)

end Sys2Proof.Laws.EncodeSelectsItsRow
end

