-- ==== Sys2Proof/Tests/Slice0.lean ====
section
/-! SUPPORT. The model's own tests. Expected values come from spec/95_test_vectors.md and spec/30_encoding.md R142, written out
here; then one witness per obligation that has hypotheses, showing a state and operands that meet them together. -/

open Sys2Proof Sys2Proof.Machine Sys2Proof.Claims

namespace Sys2Proof.Tests

/-! ### Helpers -/

/-- A bank with the given registers, the others 0. -/
def bankOf (regs : List (Reg × Nat)) : Bank := Bank.zero.writeAll regs

/-- The reset state of `W = 64` with the given registers. -/
def start (regs : List (Reg × Nat)) : State := { State.resetAt .w64 with x := bankOf regs }

/-- The same with a command word in flight that has drawn the given words. -/
def flying (w : Word) (regs : List (Reg × Nat)) (drawn : List Word) : State :=
  { start regs with cmd := w, engine := .running ⟨w, bankOf regs, drawn⟩ }

/-- The command in flight of `flying`. -/
def flight (w : Word) (regs : List (Reg × Nat)) (drawn : List Word) : Flight := ⟨w, bankOf regs, drawn⟩

/-- What one step shows: a register, STATUS and ERRINFO. -/
def shows (s : State) (r : Reg) : Option (Nat × Word × Word) :=
  match step s with
  | .next t => some (t.x.get r, t.statusWord, t.errinfo.word)
  | _ => none

/-- One step of a fetched command word from the given registers. -/
def runs (regs : List (Reg × Nat)) (w : Nat) (r : Reg) : Option (Nat × Word × Word) :=
  shows ((start regs).withFetchWord 32 w) r

/-- The response and STATUS after one event. -/
def responds (s : State) (e : Input) : Option (Option Response × Word) :=
  match step { s with inputs := [e] } with
  | .next t => some (t.resp, t.statusWord)
  | _ => none

/-- `M64 = 2^64 - 1` of 95_test_vectors.md. -/
def m64 : Nat := 0xFFFFFFFFFFFFFFFF

/-! ### WellFormed: each check refuses an ill-formed term -/

theorem test_crt_count_must_fit : (Instr.crt 0 1 2 16).wellFormed = false := by decide
theorem test_random_rounds_must_fit : (Instr.mrtestRandom 0 1 1024).wellFormed = false := by decide
theorem test_register_rounds_must_fit : (Instr.mrtestRegs 0 1 2 1024).wellFormed = false := by decide
theorem test_largest_counts_fit : (Instr.crt 0 1 2 15).wellFormed = true ∧ (Instr.mrtestRandom 0 1 1023).wellFormed = true ∧
    (Instr.mrtestRegs 0 1 2 1023).wellFormed = true := by decide

/-! ### Decode: words written out bit by bit, OPC RD RS1 RS2 RS3 IMM (R121) -/

theorem test_decode_modmul : decode 0b00001_0011_0000_0001_0010_00000000000#32 = .command (.modmul 3 0 1 2) := by decide
theorem test_decode_modpow : decode 0b00010_0100_0000_0001_0010_00000000000#32 = .command (.modpow 4 0 1 2) := by decide
theorem test_decode_gcd : decode 0b00011_0010_0000_0001_0000_00000000000#32 = .command (.gcd 2 0 1) := by decide
theorem test_decode_bgcd : decode 0b00100_0010_0000_0001_0000_00000000000#32 = .command (.bgcd 2 0 1) := by decide
theorem test_decode_xgcd : decode 0b00101_0101_0000_0001_0000_00000000000#32 = .command (.xgcd 5 0 1) := by decide
theorem test_decode_modinv : decode 0b00110_0010_0000_0001_0000_00000000000#32 = .command (.modinv 2 0 1) := by decide
theorem test_decode_crt : decode 0b00111_1001_0100_0110_0000_00000000010#32 = .command (.crt 9 4 6 2) := by decide
theorem test_decode_mrtest_random :
    decode 0b01000_0001_0000_0000_0000_00000101000#32 = .command (.mrtestRandom 1 0 40) := by decide
theorem test_decode_mrtest_registers :
    decode 0b01000_0001_0000_0010_0000_10000000011#32 = .command (.mrtestRegs 1 0 2 3) := by decide
theorem test_decode_bitlen : decode 0b01001_0001_0000_0000_0000_00000000000#32 = .command (.bitlen 1 0) := by decide
theorem test_decode_lsb : decode 0b01010_0001_0000_0000_0000_00000000000#32 = .command (.lsb 1 0) := by decide

/-- The Decode table of 95_test_vectors.md. -/
theorem test_decode_illegal : decode 0x00000000#32 = .illegal .reservedOpcode ∧ decode 0x58000000#32 = .illegal .reservedOpcode ∧
    decode 0xF8000000#32 = .illegal .reservedOpcode ∧ decode 0x08000001#32 = .illegal .reservedField ∧
    decode 0x18000800#32 = .illegal .reservedField ∧ decode 0x40004000#32 = .illegal .reservedField := by decide

/-- Lines of programs P1, P3 and P5 of 95_test_vectors.md, with their words; a comment; a hex count; a refused count; blanks
around operands and inside one (log 16). -/
theorem test_assemble : (assemble "MODMUL r15, r13, r14, r12".toList).map encode = some 0x0FEF6000#32 ∧
    (assemble "CRT2 r12, r8, r10".toList).map encode = some 0x3E450002#32 ∧
    (assemble "XGCD r13, r0, r1 ; a comment".toList).map encode = some 0x2E808000#32 ∧
    (assemble "MRTEST r6, r1, r2, #0x3".toList).map encode = some 0x43090403#32 ∧
    assemble "CRT r9, r4, r6, #16".toList = none ∧ assemble "GCD r2, r0, r16".toList = none ∧
    assemble " BITLEN  r1 ,r0  ".toList = some (.bitlen 1 0) ∧ assemble "BITLEN r1 5, r0".toList = none ∧
    assemble "MRTEST r1, r0, #4 0".toList = none := by decide

/-! ### One step of each command (95_test_vectors.md Part 2, W = 64) -/

theorem test_modmul_double_width : runs [(0, m64), (1, m64), (2, m64 - 1)] 0x09809000 3 = some (1, 0x00000002, 0x00000000) := by
  decide
theorem test_modmul_zero_modulus : runs [(0, 7), (1, 8)] 0x09809000 3 = some (0, 0x00000206, 0x00000012) := by decide
theorem test_modpow_full_width : runs [(0, 2), (1, m64), (2, m64)] 0x12009000 4 = some (9223372036854775808, 0x00000002, 0) := by
  decide +kernel
theorem test_modpow_zero_exponent : runs [(0, 5), (1, 0), (2, 1)] 0x12009000 4 = some (0, 0x00000002, 0x00000000) := by decide
theorem test_gcd_second_zero : runs [(0, 7)] 0x19008000 2 = some (7, 0x00000002, 0x00000000) := by decide
theorem test_gcd_first_zero : runs [(1, 5)] 0x19008000 2 = some (0, 0x00000206, 0x00000010) := by decide
theorem test_bgcd_wide : runs [(0, m64), (1, 9223372036854775808)] 0x21008000 2 = some (1, 0x00000002, 0x00000000) := by decide
theorem test_xgcd_overlap : runs [(0, 240), (1, 46)] 0x28008000 1 = some (9, 0x00000012, 0x00000000) ∧
    runs [(0, 240), (1, 46)] 0x28008000 2 = some (47, 0x00000012, 0x00000000) := by decide
theorem test_xgcd_range_checked_first : runs [(1, 5)] 0x2F008000 14 = some (0, 0x00000206, 0x0000003E) := by decide
theorem test_modinv_large_operand : runs [(0, 65537), (1, 60000)] 0x31008000 2 = some (33473, 0x00000002, 0x00000000) := by decide
theorem test_modinv_boundary : runs [(0, 4), (1, 8)] 0x31008000 2 = some (0, 0x00000306, 0x00000080) := by decide
theorem test_crt_three_moduli :
    runs [(0, 2), (1, 3), (2, 2), (3, 3), (4, 5), (5, 7)] 0x3C818003 9 = some (23, 0x00000002, 0x00000000) := by decide
theorem test_crt_errors :
    runs [(0, 1), (1, 1), (2, 1), (3, 5), (4, 3), (5, 9)] 0x3C818003 9 = some (0, 0x00000306, 0x00000184) ∧
    runs [(3, 2 ^ 32 + 15), (4, 2 ^ 32 + 1)] 0x3C818002 9 = some (0, 0x00000206, 0x00000144) ∧
    runs [] 0x3C818000 9 = some (0, 0x00000206, 0x00000050) := by decide
theorem test_mrtest_second_round :
    runs [(0, 2047), (2, 2), (3, 3)] 0x40810402 1 = some (0, 0x00000002, 0x00000100) := by decide
theorem test_mrtest_witness_range :
    runs [(0, 97), (2, 2), (3, 96)] 0x40810402 1 = some (0, 0x00000206, 0x00000123) := by decide
theorem test_mrtest_random_rejected_draw :
    shows (flying 0x40800028#32 [(0, 561)] [0xFFFFFFFF#32, 0x00000000#32]) 1 = some (0, 0x00000002, 0x00000000) := by decide
theorem test_mrtest_random_two_rounds :
    shows (flying 0x40800002#32 [(0, 97)] [0x00000080#32, 0x00000041#32]) 1 = some (1, 0x0000000A, 0x00000000) := by decide
theorem test_bitlen_full_width : runs [(0, m64)] 0x48800000 1 = some (64, 0x00000002, 0x00000000) := by decide
theorem test_bitlen_zero : runs [] 0x48800000 1 = some (1, 0x00000002, 0x00000000) := by decide
theorem test_lsb_top_bit : runs [(0, 9223372036854775808)] 0x50800000 1 = some (63, 0x00000002, 0x00000000) := by decide
theorem test_lsb_zero : runs [] 0x50800000 1 = some (0, 0x00000206, 0x00000010) := by decide
theorem test_illegal_words : runs [] 0x00000000 0 = some (0, 0x00000106, 0x00000060) ∧
    runs [] 0x08000001 0 = some (0, 0x00000106, 0x00000070) := by decide

/-- `decodeTableWord` and the fetch agree on a row (R142). -/
theorem test_table_word : decodeTableWord 32 0x2A808000 = some (.xgcd 5 0 1) ∧ decodeTableWord 32 0 = none := by decide

/-! ### The bus (95_test_vectors.md, "Bus and protocol") -/

theorem test_bus_id_and_param : responds (start []) (memRead 0x0000#16) = some (some (.data 0x52534331#32), 0) ∧
    responds (start []) (memRead 0x0004#16) = some (some (.data 0x08100002#32), 0) := by decide
theorem test_bus_reserved : responds (start []) (memRead 0x0018#16) = some (some (.data 0), 0) ∧
    responds (start []) (memRead 0x8080#16) = some (some (.data 0), 0) ∧
    responds (start []) (memWrite 0x0100#16 0xFFFFFFFF#32) = some (some .ack, 0) := by decide
theorem test_bus_error : responds (start []) (memRead 0x8002#16) = some (some .busError, 0) ∧
    responds (start []) (.access (.read 0x8000#16 .half)) = some (some .busError, 0) := by decide
theorem test_bus_window_order :
    responds (start [(1, 0x1122334455667788)]) (memRead 0x8008#16) = some (some (.data 0x55667788#32), 0) ∧
    responds (start [(1, 0x1122334455667788)]) (memRead 0x800C#16) = some (some (.data 0x11223344#32), 0) := by decide
theorem test_bus_busy_window : responds (flying 0 [(0, 5)] []) (memRead 0x8000#16) = some (some (.data 0), 0x81#32) ∧
    responds (flying 0 [] []) (memWrite 0x8000#16 5#32) = some (some .ack, 0x81#32) := by decide
theorem test_bus_overrun : responds (flying 0 [] []) (memWrite 0x0010#16 1#32) = some (some .ack, 0x41#32) := by decide
theorem test_bus_clear_flags :
    responds { start [] with status := { Status.zero with done := true, overrun := true, busyacc := true } }
      (memWrite 0x000C#16 0x000000C2#32) = some (some .ack, 0) ∧
    responds { start [] with status := { Status.zero with done := true, overrun := true, busyacc := true } }
      (memWrite 0x000C#16 0xFFFFFF3D#32) = some (some .ack, 0x000000C2#32) := by decide

/-- The host notation's addresses and values for `LOAD r7, M64` of program P1. -/
theorem test_load_writes : loadOperand .w64 7 m64 = [memWrite 0x8038#16 0xFFFFFFFF#32, memWrite 0x803C#16 0xFFFFFFFF#32] := by
  decide

/-! ### Witnesses: a state and operands that meet the hypotheses of each obligation, at the boundaries of its clauses -/

/-- An idle reset state with the given events to come. -/
def awaiting (es : List Input) : State := { State.resetAt .w64 with inputs := es }

/-- A command in flight with the given events to come. -/
def flyingAwaiting (w : Word) (es : List Input) : State := { flying w [] [] with inputs := es }

/-- Whether a step answers a next state. -/
def answers (s : State) : Bool :=
  match step s with
  | .next _ => true
  | _ => false

/-- The next state of a step that answers one. -/
def nextOf (s : State) : State :=
  match step s with
  | .next t => t
  | _ => s

theorem step_nextOf {s : State} (h : answers s = true) : step s = .next (nextOf s) := by
  unfold answers at h
  unfold nextOf
  split at h
  · assumption
  · cases h

/-- The engine's own step, when no event is listed. -/
theorem engineStep_nextOf {s : State} (hi : s.inputs = []) (h : answers s = true) : s.engineStep = .next (nextOf s) := by
  rw [← step_no_event hi]
  exact step_nextOf h

/-- A word of MODMUL r3, r0, r1, r2 (R142). -/
def modmulWord : Word := 0x09809000#32

/-- A word of MRTEST r1, r0, #40 (R142). -/
def randomTestWord : Word := 0x40800028#32

/-- The bank of zeros is in range. -/
theorem zero_bank_fits : Bank.zero.fits .w64 := by unfold Bank.fits; decide

/-- An idle reset state has the invariant, whatever comes next. -/
theorem awaiting_inv (es : List Input) : (awaiting es).Inv where
  bank_fits := zero_bank_fits
  nothing_staged := rfl
  in_flight := fun f h => by cases h
  at_rest := fun _ =>
    { no_request := rfl
      error_flags := fun h => absurd rfl h
      reason_iff := ⟨fun _ => rfl, fun _ => rfl⟩
      no_error_reg := fun _ => rfl
      prime_source := fun h => by cases h
      sign_source := fun h => by rcases h with h | h <;> cases h }

/-- An accepted command on the bank of zeros has the invariant. -/
theorem flyingAwaiting_inv (w : Word) (es : List Input) : (flyingAwaiting w es).Inv where
  bank_fits := zero_bank_fits
  nothing_staged := rfl
  in_flight := fun f h => by
    cases h
    exact
      { cmd_eq := rfl
        snap_eq := rfl
        status_clear := rfl
        errinfo_clear := rfl
        request_waits := fun h => by cases h
        drawn_needed := fun h => absurd rfl h }
  at_rest := fun h => by cases h

theorem witness_ResetInputIsOneStepToReset : Next (flyingAwaiting modmulWord [.reset, .engine]) .reset [.engine] := rfl

theorem witness_ResetLeavesTheListedValues : Next (flyingAwaiting modmulWord [.reset]) .reset [] := rfl

theorem witness_EveryStepKeepsTheInvariant : ∃ s t : State, s.Inv ∧ step s = .next t ∧ s.engine ≠ .idle ∧ t.engine = .idle :=
  ⟨flyingAwaiting modmulWord [], _, flyingAwaiting_inv _ _, step_nextOf (by decide +kernel), nofun, by decide⟩

theorem witness_NoStepFromTheInvariantStops : (flyingAwaiting 0x2A808000#32 []).Inv ∧ (awaiting [.reset]).Inv :=
  ⟨flyingAwaiting_inv _ _, awaiting_inv _⟩

theorem witness_EncodedCommandsDecodeBack : (Instr.crt 15 0 15 15).wellFormed = true ∧
    (Instr.mrtestRegs 15 0 15 1023).wellFormed = true ∧ (Instr.mrtestRandom 0 15 0).wellFormed = true := by decide

theorem witness_DecodedWordsAreTheirEncodings : decode 0x2A808000#32 = .command (.xgcd 5 0 1) := by decide

/-- One word for each row, one for no row of each kind, and a word in flight of that kind. -/
theorem witness_DecodeReadsTheFieldsOfEachRow :
    (0x09809000#32 &&& 0xF80007FF#32 = 0x08000000#32) ∧ (0x12009000#32 &&& 0xF80007FF#32 = 0x10000000#32) ∧
    (0x19008000#32 &&& 0xF8007FFF#32 = 0x18000000#32) ∧ (0x21008000#32 &&& 0xF8007FFF#32 = 0x20000000#32) ∧
    (0x2A808000#32 &&& 0xF8007FFF#32 = 0x28000000#32) ∧ (0x31008000#32 &&& 0xF8007FFF#32 = 0x30000000#32) ∧
    (0x3CA3000F#32 &&& 0xF8007FF0#32 = 0x38000000#32) ∧ (0x408003FF#32 &&& 0xF807FC00#32 = 0x40000000#32) ∧
    (0x408107FF#32 &&& 0xF8007C00#32 = 0x40000400#32) ∧ (0x48800000#32 &&& 0xF807FFFF#32 = 0x48000000#32) ∧
    (0x50800000#32 &&& 0xF807FFFF#32 = 0x50000000#32) ∧
    (∀ r ∈ maskTable, 0x58000000#32 &&& r.2 ≠ r.1) ∧ (∀ r ∈ maskTable, 0x08000001#32 &&& r.2 ≠ r.1) ∧
    (∀ w, (flying w [] []).engine = .running (flight w [] [])) ∧ decode 0#32 = .illegal .reservedOpcode ∧
    decode 0x08000001#32 = .illegal .reservedField := by
  refine ⟨by decide, by decide, by decide, by decide, by decide, by decide, by decide, by decide, by decide, by decide, by decide,
    by simp [maskTable], by simp [maskTable], fun _ => rfl, by decide, by decide⟩

theorem witness_ReservedOpcodesCompleteIllegal : (∀ w, (flying w [] []).engine = .running (flight w [] [])) ∧
    ∀ w ∈ [0x00000000#32, 0x58000000#32, 0xFFFFFFFF#32], w.toNat / 2 ^ 27 ∉ Set.Icc 0x01 0x0A :=
  ⟨fun _ => rfl, by simp⟩

/-- A word in flight of each opcode with a nonzero must-be-zero field. -/
theorem witness_NonzeroReservedFieldsCompleteIllegal :
    (∀ w, (flying w [] []).engine = .running (flight w [] [])) ∧
    (∀ p ∈ [(0x01, 0x08000001#32), (0x02, 0x10000400#32)], p.2.toNat / 2 ^ 27 = p.1 ∧ p.2.extractLsb' 0 11 ≠ 0) ∧
    (∀ p ∈ [(0x03, 0x18000800#32), (0x04, 0x20000001#32), (0x05, 0x28004000#32), (0x06, 0x30000400#32)],
      p.2.toNat / 2 ^ 27 = p.1 ∧ p.2.extractLsb' 0 15 ≠ 0) ∧
    ((0x3C818012#32).toNat / 2 ^ 27 = 0x07 ∧ (0x3C818012#32).extractLsb' 4 11 ≠ 0) ∧
    ((0x40000C01#32).toNat / 2 ^ 27 = 0x08 ∧ (0x40000C01#32).extractLsb' 11 4 ≠ 0) ∧
    ((0x40008001#32).toNat / 2 ^ 27 = 0x08 ∧ (0x40008001#32).getLsbD 10 = false ∧ (0x40008001#32).extractLsb' 15 4 ≠ 0) ∧
    (∀ p ∈ [(0x09, 0x48008000#32), (0x0A, 0x50000001#32)], p.2.toNat / 2 ^ 27 = p.1 ∧ p.2.extractLsb' 0 19 ≠ 0) :=
  ⟨fun _ => rfl, by decide, by decide, by decide, by decide, by decide, by decide⟩

theorem witness_StepRunsTheDecodedCommand :
    (EngineMoves (flyingAwaiting modmulWord []) ∧ decode modmulWord = .command (.modmul 3 0 1 2)) ∧
    (EngineMoves (flyingAwaiting 0#32 [.engine, .reset]) ∧ decode 0#32 = .illegal .reservedOpcode) ∧
    (EngineMoves (awaiting [.engine]) ∧ (awaiting [.engine]).engine = .idle) :=
  ⟨⟨.inl rfl, by decide⟩, ⟨.inr ⟨_, rfl⟩, by decide⟩, .inr ⟨_, rfl⟩, rfl⟩

/-- A modulus of 0 and the largest modulus. -/
theorem witness_ModmulCompletes : ∃ (s : State) (f : Flight), s.engine = .running f ∧ f.snap.get 2 = 0 ∧ f.snap.get 3 = m64 :=
  ⟨flying modmulWord [(3, m64)] [], _, rfl, by decide, by decide⟩

theorem witness_ModpowCompletes : ∃ (s : State) (f : Flight), s.engine = .running f ∧ f.snap.get 2 = 0 ∧ f.snap.get 3 = 1 ∧ f.snap.get 1 = 0 :=
  ⟨flying 0x12009000#32 [(3, 1)] [], _, rfl, by decide, by decide, by decide⟩

theorem witness_GcdCompletes : ∃ (s : State) (f : Flight), s.engine = .running f ∧ f.snap.get 0 = 7 ∧ f.snap.get 1 = 0 :=
  ⟨flying 0x19008000#32 [(0, 7)] [], _, rfl, by decide, by decide⟩

theorem witness_BgcdCompletesAsGcdDoes : ∃ (s : State) (f : Flight), s.engine = .running f ∧ f.snap.get 0 = 1 ∧ f.snap.get 1 = m64 :=
  ⟨flying 0x21008000#32 [(0, 1), (1, m64)] [], _, rfl, by decide, by decide⟩

/-- The two sides of RD = 13, a zero first operand, a zero second operand, and both at least 1. -/
theorem witness_XgcdCompletes : ∃ (s : State) (f : Flight), s.engine = .running f ∧ f.snap.fits s.width ∧ 13 < (14 : Reg).val ∧ (13 : Reg).val ≤ 13 ∧
    f.snap.get 0 = 0 ∧ f.snap.get 1 = m64 ∧ f.snap.get 2 = 1 :=
  ⟨flying 0x2A808000#32 [(1, m64), (2, 1)] [], _, rfl, by unfold Bank.fits; decide, by decide, by decide, by decide, by decide,
    by decide⟩

/-- `n = 0`; `m = 0`; operands with a common factor; coprime operands, also modulo 1. -/
theorem witness_ModinvCompletes : ∃ (s : State) (f : Flight), s.engine = .running f ∧ f.snap.get 0 = 0 ∧ f.snap.get 1 = 4 ∧ f.snap.get 2 = 8 ∧
    Nat.gcd 4 8 ≠ 1 ∧ f.snap.get 3 = 1 ∧ Nat.gcd 4 1 = 1 ∧ f.snap.get 4 = m64 ∧ Nat.gcd 4 m64 = 1 :=
  ⟨flying 0x31008000#32 [(1, 4), (2, 8), (3, 1), (4, m64)] [], _, rfl, by decide, by decide, by decide, by decide, by decide,
    by decide, by decide, by decide⟩

/-- Three moduli (3, 5, 7) that end at r15, and a count of 1 whose product is `2^64 - 1`. -/
theorem witness_CrtReconstructs :
    (∃ (s : State) (f : Flight), s.engine = .running f ∧ 1 ≤ 3 ∧ 3 ≤ 8 ∧ (0 : Reg).val + 3 - 1 ≤ 15 ∧ (13 : Reg).val + 3 - 1 ≤ 15 ∧
      (∀ i < 3, elem f.snap 13 i ≠ 0) ∧ (∏ i ∈ Finset.range 3, elem f.snap 13 i) < 2 ^ s.width.bits ∧
      (∀ i < 3, ∀ j < 3, i ≠ j → Nat.Coprime (elem f.snap 13 i) (elem f.snap 13 j))) ∧
    (∃ (s : State) (f : Flight), s.engine = .running f ∧ elem f.snap 15 0 ≠ 0 ∧ (15 : Reg).val + 1 - 1 ≤ 15 ∧
      (∏ i ∈ Finset.range 1, elem f.snap 15 i) = 2 ^ s.width.bits - 1) :=
  ⟨⟨flying 0x3CF68003#32 [(0, 2), (1, 3), (2, 2), (13, 3), (14, 5), (15, 7)] [], _, rfl, by decide, by decide, by decide, by decide,
      by decide, by decide, by decide⟩,
    ⟨flying 0x3C878001#32 [(15, m64)] [], _, rfl, by decide, by decide, by decide⟩⟩

/-- Moduli (5, 3, 9): the first that shares a factor is element 1. -/
theorem witness_CrtReportsModuliThatAreNotCoprime : ∃ (s : State) (f : Flight), s.engine = .running f ∧ 1 ≤ 3 ∧ 3 ≤ 8 ∧ (0 : Reg).val + 3 - 1 ≤ 15 ∧
    (3 : Reg).val + 3 - 1 ≤ 15 ∧ (∀ j < 3, elem f.snap 3 j ≠ 0) ∧
    (∏ j ∈ Finset.range 3, elem f.snap 3 j) < 2 ^ s.width.bits ∧ 1 < 3 ∧
    (∃ j < 3, j ≠ 1 ∧ ¬ Nat.Coprime (elem f.snap 3 1) (elem f.snap 3 j)) ∧
    (∀ i' < 1, ∀ j < 3, j ≠ i' → Nat.Coprime (elem f.snap 3 i') (elem f.snap 3 j)) :=
  ⟨flying 0x3C818003#32 [(3, 5), (4, 3), (5, 9)] [], _, rfl, by decide, by decide, by decide, by decide, by decide, by decide,
    by decide, ⟨2, by decide, by decide, by decide⟩, by decide⟩

/-- Each clause: the counts 0 and 9; arrays one past r15; a zero modulus after a nonzero one; a product that reaches `2^64` at
element 1. -/
theorem witness_CrtRejectsInOrder :
    (flying 0x3C818000#32 [] []).engine = .running (flight 0x3C818000#32 [] []) ∧ (8 < 9) ∧
    (15 < (14 : Reg).val + 3 - 1 ∧ 15 < (9 : Reg).val + 8 - 1 ∧ (0 : Reg).val + 3 - 1 ≤ 15) ∧
    (∃ f : Flight, (flying 0x3C818002#32 [(3, 5)] []).engine = .running f ∧ elem f.snap 3 1 = 0 ∧ ∀ j < 1, elem f.snap 3 j ≠ 0) ∧
    (∃ (s : State) (f : Flight), s.engine = .running f ∧ (∀ j < 2, elem f.snap 3 j ≠ 0) ∧
      2 ^ s.width.bits ≤ ∏ j ∈ Finset.range (1 + 1), elem f.snap 3 j ∧
      (∏ j ∈ Finset.range 1, elem f.snap 3 j) < 2 ^ s.width.bits) :=
  ⟨rfl, by decide, by decide, ⟨_, rfl, by decide, by decide⟩,
    ⟨flying 0x3C818002#32 [(3, 2 ^ 32), (4, 2 ^ 32)] [], _, rfl, by decide, by decide, by decide⟩⟩

/-- `n - 1 = 2^5 · 3` for 97: the witness 2 passes, by `2^(4·3) mod 97 = 22`, … , `2^(16·3) mod 97 = 1`, `2^(8·3) mod 97 = 96`. -/
theorem passes_97_2 : Passes 97 2 := ⟨5, 3, by decide, by decide, .inr ⟨3, by decide, by decide⟩⟩

/-- Every split of 96 is `2^5 · 3`. -/
theorem split_96 {s d : Nat} (h : 97 - 1 = 2 ^ s * d) (hd : d % 2 = 1) : s = 5 ∧ d = 3 := by
  have hs : s ≤ 6 := by
    by_contra hlt
    obtain ⟨k, rfl⟩ := Nat.exists_eq_add_of_le (show 7 ≤ s by omega)
    rw [pow_add, Nat.mul_assoc] at h
    rcases Nat.eq_zero_or_pos (2 ^ k * d) with h0 | h0 <;> omega
  interval_cases s <;> omega

/-- 2047 = 23 · 89 with witness 3 does not pass: `2046 = 2 · 1023` and `3^1023 mod 2047 = 1565`. -/
theorem not_passes_2047_3 : ¬ Passes 2047 3 := by
  rintro ⟨s, d, h, hd, hp⟩
  have hs : s = 1 ∧ d = 1023 := by
    have hlt : s < 2 := by
      by_contra hge
      obtain ⟨k, rfl⟩ := Nat.exists_eq_add_of_le (show 2 ≤ s by omega)
      rw [pow_add, Nat.mul_assoc] at h
      omega
    interval_cases s <;> omega
  obtain ⟨rfl, rfl⟩ := hs
  rcases hp with hp | ⟨r, hr, hp⟩
  · exact absurd hp (by decide +kernel)
  · obtain rfl : r = 0 := by omega
    exact absurd hp (by decide +kernel)

/-- `n = 1`, 2, 3; `n = 97` with witnesses 2 and `n - 2 = 95`; `n = 2047`, whose witness 2 passes and witness 3 does not. -/
theorem witness_MrtestWithWitnessesCompletes :
    (∃ (s : State) (f : Flight), s.engine = .running f ∧ 1 ≤ 1 ∧ (15 : Reg).val + 1 - 1 ≤ 15 ∧ f.snap.get 0 = 1 ∧ f.snap.get 1 = 2 ∧ f.snap.get 3 = 3) ∧
    (∃ (s : State) (f : Flight), s.engine = .running f ∧ 4 ≤ f.snap.get 0 ∧
      (∀ i < 2, 2 ≤ elem f.snap 2 i ∧ elem f.snap 2 i ≤ f.snap.get 0 - 2) ∧ Passes (f.snap.get 0) (elem f.snap 2 0)) ∧
    (∃ (s : State) (f : Flight), s.engine = .running f ∧ 4 ≤ f.snap.get 0 ∧
      (∀ i < 2, 2 ≤ elem f.snap 2 i ∧ elem f.snap 2 i ≤ f.snap.get 0 - 2) ∧
      (∀ j < 1, Passes (f.snap.get 0) (elem f.snap 2 j)) ∧ ¬ Passes (f.snap.get 0) (elem f.snap 2 1)) := by
  refine ⟨⟨flying 0x40810401#32 [(0, 1), (1, 2), (3, 3)] [], _, rfl, by decide, by decide, by decide, by decide, by decide⟩,
    ⟨flying 0x40810402#32 [(0, 97), (2, 2), (3, 95)] [], _, rfl, by decide, by decide, passes_97_2⟩,
    ⟨flying 0x40810402#32 [(0, 2047), (2, 2), (3, 3)] [], _, rfl, by decide, by decide, ?_, not_passes_2047_3⟩⟩
  intro j hj
  obtain rfl : j = 0 := by omega
  exact ⟨1, 1023, by decide, by decide, .inl (by decide +kernel)⟩

/-- Counts 1 and 1023; a witness array one past r15; `n = 0`; `n = 97` with the bad witness `n - 1` after a good one. -/
theorem witness_MrtestRejectsInOrder :
    (∃ (s : State) (f : Flight), s.engine = .running f ∧ 1 ≤ 1023 ∧ 15 < (2 : Reg).val + 15 - 1 ∧ (2 : Reg).val + 14 - 1 ≤ 15 ∧ f.snap.get 0 = 0) ∧
    (∃ (s : State) (f : Flight), s.engine = .running f ∧ 4 ≤ f.snap.get 0 ∧ (elem f.snap 2 1 < 2 ∨ f.snap.get 0 - 2 < elem f.snap 2 1) ∧
      ∀ j < 1, 2 ≤ elem f.snap 2 j ∧ elem f.snap 2 j ≤ f.snap.get 0 - 2) :=
  ⟨⟨flying 0x4081040F#32 [] [], _, rfl, by decide, by decide, by decide, by decide⟩,
    ⟨flying 0x40810402#32 [(0, 97), (2, 2), (3, 96)] [], _, rfl, by decide, by decide, by decide⟩⟩

/-- The words `0x80` and then a rejected `0x7F` (127 > 93) and `0x41` draw the witnesses 2 and 67 for 97. -/
theorem draws_97 : Draws 97 [0x00000080#32, 0x0000007F#32, 0x00000041#32] [2 + 0, 2 + 65] :=
  .cons (before := []) (block := [0x00000080#32]) (rest := [0x0000007F#32, 0x00000041#32]) .nil ⟨by decide, by decide⟩ (by decide)
    (.cons (before := [0x0000007F#32]) (block := [0x00000041#32]) (rest := [])
      (.cons (block := [0x0000007F#32]) (rest := []) ⟨by decide, rfl⟩ (by decide) .nil) ⟨by decide, by decide⟩ (by decide) .nil)

/-- Both witnesses pass; and 2047 with the drawn witness 3 fails in round 0. -/
theorem witness_MrtestWithRandomWordsCompletes :
    (∃ (s : State) (f : Flight), s.engine = .running f ∧ f.snap.get 1 = 1 ∧ f.snap.get 2 = 2 ∧ f.snap.get 3 = 3 ∧ 4 ≤ f.snap.get 0 ∧
      Draws (f.snap.get 0) f.drawn [2 + 0, 2 + 65] ∧ ∀ a ∈ [2 + 0, 2 + 65], Passes (f.snap.get 0) a) ∧
    (∃ (s : State) (f : Flight), s.engine = .running f ∧ 4 ≤ f.snap.get 0 ∧ Draws (f.snap.get 0) f.drawn ([] ++ [2 + 1]) ∧
      ¬ Passes (f.snap.get 0) (2 + 1)) := by
  refine ⟨⟨flying 0x40800002#32 [(0, 97), (1, 1), (2, 2), (3, 3)] [0x00000080#32, 0x0000007F#32, 0x00000041#32], _, rfl, by decide,
      by decide, by decide, by decide, draws_97, ?_⟩,
    ⟨flying 0x40800001#32 [(0, 2047)] [0x00000001#32], _, rfl, by decide,
      .cons (before := []) (block := [0x00000001#32]) (rest := []) .nil ⟨by decide, by decide⟩ (by decide) .nil, not_passes_2047_3⟩⟩
  simp only [List.mem_cons, List.not_mem_nil, or_false]
  rintro a (rfl | rfl)
  · exact passes_97_2
  · exact ⟨5, 3, by decide, by decide, .inr ⟨4, by decide, by decide⟩⟩

/-- One round of two is decided, one attempt is rejected, and no word of the next attempt has come. -/
theorem witness_MrtestWaitsForTheNextWord : ∃ (s : State) (f : Flight), s.engine = .running f ∧ 2 ≤ 1023 ∧ 4 ≤ f.snap.get 0 ∧
    f.drawn = [0x00000080#32] ++ ([0x0000007F#32] ++ []) ∧ Draws (f.snap.get 0) [0x00000080#32] [2 + 0] ∧ [2 + 0].length < 2 ∧
    (∀ a ∈ [2 + 0], Passes (f.snap.get 0) a) ∧ Rejected (f.snap.get 0) [0x0000007F#32] ∧
    ([] : List Word).length < (drawBits (f.snap.get 0) + 31) / 32 := by
  refine ⟨flying 0x40800002#32 [(0, 97)] [0x00000080#32, 0x0000007F#32], _, rfl, by decide, by decide, rfl,
    .cons (before := []) (block := [0x00000080#32]) (rest := []) .nil ⟨by decide, by decide⟩ (by decide) .nil, by decide, ?_,
    .cons (block := [0x0000007F#32]) (rest := []) ⟨by decide, rfl⟩ (by decide) .nil, by decide⟩
  simp only [List.mem_singleton]
  rintro a rfl
  exact passes_97_2

/-- The prime 2, which reads no witness, and the prime 97 with the witnesses 2 and 95. -/
theorem witness_PrimesAreNeverReportedComposite : ∃ (s : State) (f : Flight), s.engine = .running f ∧ 1 ≤ 2 ∧ 2 ≤ 1023 ∧ Nat.Prime (f.snap.get 0) ∧
    (2 : Reg).val + 2 - 1 ≤ 15 ∧ 4 ≤ f.snap.get 0 ∧ (∀ i < 2, 2 ≤ elem f.snap 2 i ∧ elem f.snap 2 i ≤ f.snap.get 0 - 2) ∧
    Nat.Prime (f.snap.get 4) ∧ f.snap.get 4 = 2 :=
  ⟨flying 0x40810402#32 [(0, 97), (2, 2), (3, 95), (4, 2)] [], _, rfl, by decide, by decide, by
      show Nat.Prime 97; norm_num, by decide, by decide, by decide, by show Nat.Prime 2; norm_num, by decide⟩

/-- `n = 0`, `n = 1` (`k = 1`), and the boundaries `2^63` and `2^64 - 1` of `k = 64`. -/
theorem witness_BitlenCompletes : ∃ (s : State) (f : Flight), s.engine = .running f ∧ f.snap.get 0 = 0 ∧
    (2 ^ (1 - 1) ≤ f.snap.get 1 ∧ f.snap.get 1 < 2 ^ 1) ∧ (2 ^ (64 - 1) ≤ f.snap.get 2 ∧ f.snap.get 2 < 2 ^ 64) ∧
    (2 ^ (64 - 1) ≤ f.snap.get 3 ∧ f.snap.get 3 < 2 ^ 64) :=
  ⟨flying 0x48800000#32 [(1, 1), (2, 2 ^ 63), (3, m64)] [], _, rfl, by decide, by decide, by decide, by decide⟩

theorem witness_LsbCompletes : ∃ (s : State) (f : Flight), s.engine = .running f ∧ f.snap.get 0 = 0 ∧ (f.snap.get 1 = 2 ^ 63 * 1 ∧ 1 % 2 = 1) ∧
    (f.snap.get 2 = 2 ^ 0 * m64 ∧ m64 % 2 = 1) :=
  ⟨flying 0x50800000#32 [(1, 2 ^ 63), (2, m64)] [], _, rfl, by decide, by decide, by decide⟩

/-- XGCD, which has the most destinations: `r8` is none of them. -/
theorem witness_CommandsWriteOnlyTheirDestinations : ∃ t, exec (.xgcd 5 0 1) (flying 0x2A808000#32 [(0, 240), (1, 46)] []) = .next t ∧
    (8 : Reg).val ∉ destinations (.xgcd 5 0 1) :=
  ⟨_, engineStep_nextOf (s := flying 0x2A808000#32 [(0, 240), (1, 46)] []) rfl (by decide), by decide⟩

theorem witness_ErrorsArePrecise : ∃ (s t : State) (f : Flight), s.engine = .running f ∧ s.status.errcode = .none ∧
    s.engineStep = .next t ∧ t.status.errcode ≠ .none :=
  ⟨flying modmulWord [(5, 9)] [], _, _, rfl, rfl, engineStep_nextOf rfl (by decide +kernel), by decide⟩

/-- XGCD and an ILLEGAL word, neither of which is a random MRTEST. -/
theorem witness_EveryOtherCommandCompletesInOneEngineStep : ∀ w ∈ [0x2A808000#32, 0x00000000#32],
    (flyingAwaiting w []).Inv ∧ (flyingAwaiting w []).engine = .running (flight w [] []) ∧ ¬ RandomInFlight (flight w [] []) ∧
      EngineMoves (flyingAwaiting w []) := by
  intro w hw
  refine ⟨flyingAwaiting_inv w [], rfl, ?_, .inl rfl⟩
  rintro ⟨rd, rn, rounds, h⟩
  have h' : decode w = .command (.mrtestRandom rd rn rounds) := h
  simp only [List.mem_cons, List.not_mem_nil, or_false] at hw
  rcases hw with rfl | rfl
  · rw [show decode 0x2A808000#32 = .command (.xgcd 5 0 1) by decide] at h'; cases h'
  · rw [show decode 0x00000000#32 = .illegal .reservedOpcode by decide] at h'; cases h'

/-- Two states that differ in everything else, a command that completes. -/
theorem witness_ResultsDependOnTheSnapshotAlone : ∃ s₁ s₂ t₁ : State, s₁.width = s₂.width ∧ s₁.engine = s₂.engine ∧ s₁.x = s₂.x ∧
    s₁.engineStep = .next t₁ ∧ s₁.busy = true ∧ t₁.engine = .idle ∧ s₁.ie ≠ s₂.ie ∧ s₁.inputs ≠ s₂.inputs :=
  ⟨flying modmulWord [(0, 7), (1, 8), (2, 5)] [],
    { flying modmulWord [(0, 7), (1, 8), (2, 5)] [] with ie := true, inputs := [.reset] }, _, rfl, rfl, rfl,
    engineStep_nextOf rfl (by decide +kernel), rfl, by decide, nofun, nofun⟩

theorem witness_OnlyRandomTestsRequestWords : ∃ (s t : State) (f : Flight), s.engine = .running f ∧ s.engineStep = .next t ∧
    t.rndReq = true :=
  ⟨flying randomTestWord [(0, 97)] [], _, _, rfl, engineStep_nextOf rfl (by decide +kernel), by decide⟩

/-- A byte access at an aligned address, and a word access at an address that is not. -/
theorem witness_BusErrorsHaveNoEffect :
    (Size.byte ≠ .word ∧ Next (awaiting [.access (.write 0x0010#16 .byte 1#32)]) (.access (.write 0x0010#16 .byte 1#32)) []) ∧
    ((0x8002#16).toNat % 4 ≠ 0 ∧ Next (awaiting [.access (.read 0x8002#16 .word)]) (.access (.read 0x8002#16 .word)) []) :=
  ⟨⟨by decide, rfl⟩, by decide, rfl⟩

/-- The first and last aligned addresses of each reserved range, for `W = 64`; at `W = 16384` the second range is empty. -/
theorem witness_ReservedAddressesReadZeroAndIgnoreWrites :
    (∀ a ∈ [0x0018#16, 0x00FC#16, 0x0100#16, 0x7FFC#16, 0x8080#16, 0xFFFC#16], ReservedAddr .w64 a ∧ a.toNat % 4 = 0) ∧
    (∀ a v, Next (awaiting [memRead a]) (memRead a) [] ∧ Next (awaiting [memWrite a v]) (memWrite a v) []) ∧
    ¬ ReservedAddr .w16384 0xFFFC#16 :=
  ⟨by simp [ReservedAddr, Width.bits], fun _ _ => ⟨rfl, rfl⟩, by simp [ReservedAddr, Width.bits]⟩

/-- The first and the last word of the window. -/
theorem witness_WindowAccessesWordsWhileIdle :
    (∀ p ∈ [((0 : Reg), 0, 0x8000#16), ((15 : Reg), 1, 0x807C#16)],
      p.2.1 < (awaiting []).width.bits / 32 ∧ wordAddr .w64 p.1 p.2.1 = p.2.2) ∧
    (∀ es, (awaiting es).engine = .idle) ∧
    (∀ a v, Next (awaiting [memRead a]) (memRead a) [] ∧ Next (awaiting [memWrite a v]) (memWrite a v) []) :=
  ⟨by decide, fun _ => rfl, fun _ _ => ⟨rfl, rfl⟩⟩

theorem witness_WindowRejectsAccessesWhileBusy :
    (∀ p ∈ [((0 : Reg), 0, 0x8000#16), ((15 : Reg), 1, 0x807C#16)],
      p.2.1 < (flyingAwaiting 0#32 []).width.bits / 32 ∧ wordAddr .w64 p.1 p.2.1 = p.2.2) ∧
    (∀ es, (flyingAwaiting 0#32 es).engine = .running (flight 0#32 [] [])) ∧
    (∀ a v, Next (flyingAwaiting 0#32 [memRead a]) (memRead a) [] ∧
      Next (flyingAwaiting 0#32 [memWrite a v]) (memWrite a v) []) :=
  ⟨by decide, fun _ => rfl, fun _ _ => ⟨rfl, rfl⟩⟩

theorem witness_RegisterReadsReturnTheirFields :
    (∀ a ∈ [0x000#16, 0x004#16, 0x008#16, 0x00C#16, 0x010#16, 0x014#16], a.toNat ≤ 0x14 ∧ a.toNat % 4 = 0) ∧
    ∀ a, Next (awaiting [memRead a]) (memRead a) [] := ⟨by simp, fun _ => rfl⟩

theorem witness_RegisterWritesChangeTheirFieldsOnly :
    ∀ a v, Next (flyingAwaiting 0#32 [memWrite a v]) (memWrite a v) [] := fun _ _ => rfl

theorem witness_CmdWriteIsAcceptedWhileIdle : (awaiting [memWrite 0x010#16 0#32]).engine = .idle ∧
    Next (awaiting [memWrite 0x010#16 0#32]) (.access (.write 0x010#16 .word 0#32)) [] := ⟨rfl, rfl⟩

theorem witness_CmdWriteIsDroppedWhileBusy :
    (flyingAwaiting modmulWord [memWrite 0x010#16 0#32]).engine = .running (flight modmulWord [] []) ∧
    Next (flyingAwaiting modmulWord [memWrite 0x010#16 0#32]) (.access (.write 0x010#16 .word 0#32)) [] := ⟨rfl, rfl⟩

/-- A word offered on request, and one offered without. -/
theorem witness_RandomWordsAreTransferredOnRequest :
    (Next { flyingAwaiting randomTestWord [.randomWord 7#32] with rndReq := true } (.randomWord 7#32) [] ∧
      { flyingAwaiting randomTestWord [.randomWord 7#32] with rndReq := true }.engine = .running (flight randomTestWord [] [])) ∧
    (Next (awaiting [.randomWord 7#32]) (.randomWord 7#32) [] ∧ (awaiting [.randomWord 7#32]).rndReq = false) :=
  ⟨⟨rfl, rfl⟩, rfl, rfl⟩

/-- The two words of `2^64 - 1` written in falling order. -/
theorem witness_LoadingAnOperandInAnyOrderSetsIt : ∃ (s : State) (order : List Nat), s.engine = .idle ∧ s.x.fits s.width ∧
    m64 < 2 ^ s.width.bits ∧ order.Perm (List.range (s.width.bits / 32)) ∧
    s.inputs = (order.map fun j => Input.access (.write (wordAddr s.width 15 j) .word (BitVec.ofNat 32 (m64 / 2 ^ (32 * j))))) ++ [] :=
  ⟨awaiting ([1, 0].map fun j => Input.access (.write (wordAddr .w64 15 j) .word (BitVec.ofNat 32 (m64 / 2 ^ (32 * j))))), [1, 0], rfl,
    zero_bank_fits, by decide, by decide, by rw [List.append_nil]; rfl⟩

/-- A completion, a window write and a reset that change the bank. -/
theorem witness_BankChangesOnlyByThreeEvents :
    (∃ s t : State, step s = .next t ∧ t.x ≠ s.x ∧ EngineMoves s) ∧
    (∃ s t : State, step s = .next t ∧ t.x ≠ s.x ∧ s.engine = .idle) ∧
    (∃ s t : State, step s = .next t ∧ t.x ≠ s.x ∧ Next s .reset []) :=
  ⟨⟨flying modmulWord [(0, 7), (1, 8), (2, 5)] [], _, step_nextOf (by decide +kernel), by decide, .inl rfl⟩,
    ⟨awaiting [memWrite 0x8000#16 5#32], _, step_nextOf (by decide +kernel), by decide, rfl⟩,
    ⟨{ start [(0, 7)] with inputs := [.reset] }, _, step_nextOf (by decide +kernel), by decide, rfl⟩⟩

theorem witness_CmdChangesOnlyByAnAcceptedWrite :
    (∃ s t : State, step s = .next t ∧ t.cmd ≠ s.cmd ∧ s.engine = .idle) ∧
    (∃ s t : State, step s = .next t ∧ t.cmd ≠ s.cmd ∧ Next s .reset []) :=
  ⟨⟨awaiting [memWrite 0x010#16 5#32], _, step_nextOf (by decide +kernel), by decide, rfl⟩,
    ⟨flyingAwaiting modmulWord [.reset], _, step_nextOf (by decide +kernel), by decide, rfl⟩⟩

/-- A STATUS write that clears both flags. -/
theorem witness_StickyFlagsStayUntilCleared : ∃ s t : State, step s = .next t ∧ s.status.overrun = true ∧
    t.status.overrun = false ∧ s.status.busyacc = true ∧ t.status.busyacc = false :=
  ⟨{ awaiting [memWrite 0x00C#16 0x000000C0#32] with status := { Status.zero with overrun := true, busyacc := true } }, _,
    step_nextOf (by decide +kernel), rfl, by decide, rfl, by decide⟩

/-- A completion with IE set, and a CTRL write with DONE set. -/
theorem witness_OnlyCompletionOrEnableRaisesIrq :
    (∃ s t : State, step s = .next t ∧ s.irq = false ∧ t.irq = true ∧ EngineMoves s) ∧
    (∃ s t : State, step s = .next t ∧ s.irq = false ∧ t.irq = true ∧ s.status.done = true) :=
  ⟨⟨{ flyingAwaiting modmulWord [] with ie := true }, _, step_nextOf (by decide +kernel), rfl, by decide, .inl rfl⟩,
    ⟨{ awaiting [memWrite 0x008#16 1#32] with status := { Status.zero with done := true } }, _, step_nextOf (by decide +kernel), rfl,
      by decide, rfl⟩⟩

/-- A STATUS read, a word on request, and the completion, each with a command in flight. -/
theorem witness_NothingCancelsACommandInFlight :
    (∃ s t : State, s.engine = .running (flight modmulWord [] []) ∧ step s = .next t ∧ ¬ ∃ rest, Next s .reset rest) ∧
    (∃ s t : State, s.engine = .running (flight randomTestWord [] []) ∧ s.rndReq = true ∧ step s = .next t ∧
      ¬ ∃ rest, Next s .reset rest) ∧
    (∃ s t : State, s.engine = .running (flight modmulWord [] []) ∧ step s = .next t ∧ t.engine = .idle ∧
      ¬ ∃ rest, Next s .reset rest) :=
  ⟨⟨flyingAwaiting modmulWord [memRead 0x00C#16], _, rfl, step_nextOf (by decide +kernel), by rintro ⟨rest, h⟩; cases h⟩,
    ⟨{ flyingAwaiting randomTestWord [.randomWord 7#32] with rndReq := true }, _, rfl, rfl, step_nextOf (by decide +kernel),
      by rintro ⟨rest, h⟩; cases h⟩,
    ⟨flyingAwaiting modmulWord [], _, rfl, step_nextOf (by decide +kernel), by decide, by rintro ⟨rest, h⟩; cases h⟩⟩

theorem witness_ConstantsNeverChange : ∃ s t : State, step s = .next t ∧ s.width = .w16384 :=
  ⟨{ State.resetAt .w16384 with inputs := [.reset] }, _, step_nextOf (by decide +kernel), rfl⟩

end Sys2Proof.Tests
end

section
/-! SUPPORT. What a step changes, field by field (10_state.md R30 to R38): the engine's move, a host access and an offered word, each said
once, for the invariant and the whole-machine rules. -/

namespace Sys2Proof.Machine

theorem isPrimalityTest_iff {i : Instr} : isPrimalityTest i ↔
    (∃ rd rn rounds, i = .mrtestRandom rd rn rounds) ∨ ∃ rd rn rw rounds, i = .mrtestRegs rd rn rw rounds := by
  cases i <;> simp [isPrimalityTest]

theorem isExtendedGcd_iff {i : Instr} : isExtendedGcd i ↔ ∃ rd ra rb, i = .xgcd rd ra rb := by
  cases i <;> simp [isExtendedGcd]

theorem drawsWords_iff {i : Instr} : drawsWords i ↔ ∃ rd rn rounds, i = .mrtestRandom rd rn rounds := by
  cases i <;> simp [drawsWords]

/-- A command that asks for another word is a random MRTEST whose verdict is open (R154, R247). -/
theorem waitsOn_of_needWord {f : Flight} {i : Instr} {w : Width} (hd : decode f.cmd = .command i)
    (h : commandResult i w f.snap f.drawn = .needWord) : f.waitsOn f.drawn := by
  have hshape := commandResult_shape i w f.snap f.drawn
  rw [h] at hshape
  obtain ⟨rd, rn, rounds, rfl⟩ := drawsWords_iff.1 hshape
  exact ⟨rd, rn, rounds, hd, h⟩

/-- An engine step that answers a next state with a command in flight commits a success, completes with an error that has a code and a
reason, or asks for a word (R100, R157, R165, R271). -/
theorem engineStep_running_cases {s t : State} {f : Flight} (he : s.engine = .running f) (h : s.engineStep = .next t) :
    (∃ i st, decode f.cmd = .command i ∧ commandResult i s.width f.snap f.drawn = .success st ∧ t = (s.stage st).commit) ∨
    (∃ e, e.code ≠ .none ∧ e.info.reason ≠ .none ∧ t = s.completeError e) ∨
    (f.waitsOn f.drawn ∧ t = s.requestWord) := by
  rcases engineStep_cases h with ⟨hidle, -⟩ | ⟨g, hg, hrun⟩
  · cases he.symm.trans hidle
  obtain rfl : g = f := Engine.running.inj (hg.symm.trans he)
  rcases hrun with ⟨i, hd, hfin⟩ | ⟨why, -, rfl⟩
  · have hshape := commandResult_shape i s.width g.snap g.drawn
    rcases finish_next hfin with ⟨st, hr, rfl⟩ | ⟨e, hr, rfl⟩ | ⟨hr, rfl⟩
    · exact .inl ⟨i, st, hd, hr, rfl⟩
    · rw [hr] at hshape
      exact .inr (.inl ⟨e, hshape.1, hshape.2, rfl⟩)
    · exact .inr (.inr ⟨waitsOn_of_needWord hd hr, rfl⟩)
  · exact .inr (.inl ⟨illegalError why, by cases why <;> simp [illegalError], by cases why <;> simp [illegalError], rfl⟩)

/-- What the engine's move keeps, and that it changes the bank only by completing (R30, R34, R38, R165). -/
theorem engineStep_frame {s t : State} (h : s.engineStep = .next t) : t.width = s.width ∧ t.cmd = s.cmd ∧
    (t.x = s.x ∨ ∃ f, s.engine = .running f ∧ t.engine = .idle) := by
  cases he : s.engine with
  | idle =>
    obtain rfl := Host.Outcome.next.inj ((engineStep_idle he).symm.trans h)
    exact ⟨rfl, rfl, .inl rfl⟩
  | running f =>
    rcases engineStep_running_cases he h with ⟨-, st, -, -, rfl⟩ | ⟨e, -, -, rfl⟩ | ⟨-, rfl⟩
    · exact ⟨rfl, rfl, .inr ⟨f, rfl, rfl⟩⟩
    · exact ⟨rfl, rfl, .inl rfl⟩
    · exact ⟨rfl, rfl, .inl rfl⟩

theorem writeCmd_busy {s : State} (hb : s.busy = true) (w : Word) :
    s.writeCmd w = { s with status := { s.status with overrun := true } } := by
  simp only [State.writeCmd, hb, if_true]

theorem writeCmd_not_busy {s : State} (hb : ¬ s.busy = true) (w : Word) : s.writeCmd w = s.accept w := by
  simp only [State.writeCmd, hb, Bool.false_eq_true, if_false]

@[simp] theorem writeCmd_width (s : State) (w : Word) : (s.writeCmd w).width = s.width := by
  unfold State.writeCmd; split <;> rfl

@[simp] theorem writeCmd_x (s : State) (w : Word) : (s.writeCmd w).x = s.x := by
  unfold State.writeCmd; split <;> rfl

/-- No access changes the width (R35). -/
theorem hostAccess_width (s : State) (a : Access) : (s.hostAccess a).width = s.width := by
  obtain ⟨resp, h | ⟨-, h⟩ | ⟨v, -, h⟩ | ⟨v, -, h⟩ | ⟨v, -, h⟩ | ⟨ad, r, j, v, -, -, -, h⟩⟩ := hostAccess_cases s a <;>
    simp [h]

/-- An access that changes the bank is a word write to the window while idle (R30, R87). -/
theorem hostAccess_x {s : State} {a : Access} (hx : (s.hostAccess a).x ≠ s.x) :
    s.engine = .idle ∧ ∃ ad v, a = .write ad .word v ∧ 0x8000 ≤ ad.toNat ∧ ad.toNat < 0x8000 + 16 * (s.width.bits / 8) := by
  obtain ⟨resp, h | ⟨-, h⟩ | ⟨v, -, h⟩ | ⟨v, -, h⟩ | ⟨v, -, h⟩ | ⟨ad, r, j, v, ha, ht, hb, -⟩⟩ := hostAccess_cases s a
  case inr.inr.inr.inr.inr =>
    obtain ⟨hlow, hhigh, -⟩ := targetOf_window_range ht
    exact ⟨engine_of_not_busy hb, ad, v, ha, hlow, hhigh⟩
  all_goals simp [h] at hx

/-- An access that changes CMD is a word write to it while idle, whose data CMD then holds (R38, R152). -/
theorem hostAccess_cmd {s : State} {a : Access} (hc : (s.hostAccess a).cmd ≠ s.cmd) :
    s.engine = .idle ∧ a = .write 0x010#16 .word (s.hostAccess a).cmd := by
  obtain ⟨resp, h | ⟨-, h⟩ | ⟨v, -, h⟩ | ⟨v, -, h⟩ | ⟨v, ha, h⟩ | ⟨ad, r, j, v, -, -, -, h⟩⟩ := hostAccess_cases s a
  case inr.inr.inr.inr.inl =>
    by_cases hb : s.busy = true
    · simp [h, writeCmd_busy hb] at hc
    · rw [h, writeCmd_not_busy hb]
      exact ⟨engine_of_not_busy (by simpa using hb), ha⟩
  all_goals simp [h] at hc

/-- An offered word goes to the command in flight and nowhere else (R100). -/
theorem offerWord_frame (s : State) (w : Word) :
    (s.offerWord w).width = s.width ∧ (s.offerWord w).cmd = s.cmd ∧ (s.offerWord w).x = s.x := by
  rcases offerWord_cases s w with h | ⟨f, -, -, h⟩ <;> rw [h] <;> exact ⟨rfl, rfl, rfl⟩

/-- No step changes the width (R9, R35). -/
theorem step_width {s t : State} (h : step s = .next t) : t.width = s.width := by
  rcases step_cases h with ⟨s', hs', hstep⟩ | ⟨a, rest, -, rfl⟩ | ⟨w, rest, -, rfl⟩ | ⟨rest, -, rfl⟩
  · obtain ⟨-, rfl⟩ | ⟨rest, -, rfl⟩ := hs' <;> exact (engineStep_frame hstep).1
  · exact hostAccess_width _ a
  · exact (offerWord_frame _ w).1
  · rfl

end Sys2Proof.Machine
end

section
/-! SUPPORT. The invariant `State.Inv` and the updates a step is made of: each keeps it or establishes it. -/

namespace Sys2Proof.Machine

/-- The flags a command in flight keeps 0, one by one (R37, R152). -/
theorem status_clear_iff {st : Status} :
    st = { st with done := false, prime := false, xneg := false, yneg := false, errcode := .none } ↔
      st.done = false ∧ st.prime = false ∧ st.xneg = false ∧ st.yneg = false ∧ st.errcode = .none := by
  cases st
  simp

/-- An idle engine has the invariant when its bank fits, nothing is staged and it is at rest. -/
theorem inv_of_idle {s : State} (he : s.engine = .idle) (hx : s.x.fits s.width) (hs : s.staged = none) (hr : s.AtRest) : s.Inv where
  bank_fits := hx
  nothing_staged := hs
  in_flight f hf := by cases he.symm.trans hf
  at_rest _ := hr

/-- A running engine has the invariant when its bank fits, nothing is staged and the flight is in order. -/
theorem inv_of_running {s : State} {f : Flight} (he : s.engine = .running f) (hx : s.x.fits s.width) (hs : s.staged = none)
    (hf : s.InFlight f) : s.Inv where
  bank_fits := hx
  nothing_staged := hs
  in_flight g hg := by
    obtain rfl := Engine.running.inj (he.symm.trans hg)
    exact hf
  at_rest hidle := by cases he.symm.trans hidle

/-- Reset has the invariant, whatever comes next (R43). -/
theorem inv_reset (w : Width) (es : List Input) : State.Inv { State.resetAt w with inputs := es } := by
  refine inv_of_idle rfl (fun r => ?_) rfl
    { no_request := rfl
      error_flags := fun h => absurd rfl h
      reason_iff := ⟨fun _ => rfl, fun _ => rfl⟩
      no_error_reg := fun _ => rfl
      prime_source := nofun
      sign_source := fun h => by rcases h with h | h <;> cases h }
  show Bank.zero.read r < w.bound
  rw [read_zero]
  exact Nat.zero_lt_one.trans (one_lt_bound w)

section Keeps
variable {s : State} (h : s.Inv)
include h

/-- IE, the last response and the coming events are outside the invariant. -/
theorem inv_environment (ie : Bool) (resp : Option Response) (es : List Input) :
    State.Inv { s with ie := ie, resp := resp, inputs := es } :=
  { h with
    in_flight := fun f hf => { h.in_flight f hf with }
    at_rest := fun hidle => { h.at_rest hidle with } }

/-- The sticky flags may change and DONE may fall (R37, R87, R153). -/
theorem inv_status {done overrun busyacc : Bool} (hdone : s.status.done = false → done = false) :
    State.Inv { s with status := { s.status with done := done, overrun := overrun, busyacc := busyacc } } := by
  refine { h with in_flight := fun f hf => ?_, at_rest := fun hidle => { h.at_rest hidle with } }
  obtain ⟨hd, hflags⟩ := status_clear_iff.1 (h.in_flight f hf).status_clear
  exact { h.in_flight f hf with status_clear := status_clear_iff.2 ⟨hdone hd, hflags⟩ }

/-- A bank that fits may be written while idle (R30, R85). -/
theorem inv_bank {b : Bank} (he : s.engine = .idle) (hb : b.fits s.width) : State.Inv { s with x := b } :=
  inv_of_idle he hb h.nothing_staged { h.at_rest he with }

/-- Acceptance while idle starts a flight in order (R152). -/
theorem inv_accept (he : s.engine = .idle) (w : Word) : (s.accept w).Inv :=
  inv_of_running rfl h.bank_fits h.nothing_staged
    { cmd_eq := rfl
      snap_eq := rfl
      status_clear := rfl
      errinfo_clear := rfl
      request_waits := fun hr => by simp [(h.at_rest he).no_request] at hr
      drawn_needed := fun hd => absurd rfl hd }

/-- A CMD write, accepted or dropped (R152, R153). -/
theorem inv_writeCmd (w : Word) : (s.writeCmd w).Inv := by
  by_cases hb : s.busy = true
  · rw [writeCmd_busy hb]
    exact inv_status h id
  · rw [writeCmd_not_busy hb]
    exact inv_accept h (engine_of_not_busy (by simpa using hb)) w

/-- An error completion (R157, R271). -/
theorem inv_completeError {e : CmdError} (hcode : e.code ≠ .none) (hreason : e.info.reason ≠ .none) : (s.completeError e).Inv :=
  inv_of_idle rfl h.bank_fits rfl
    { no_request := rfl
      error_flags := fun _ => ⟨rfl, rfl, rfl⟩
      reason_iff := ⟨fun hr => absurd hr hreason, fun hc => absurd hc hcode⟩
      no_error_reg := fun hc => absurd hc hcode
      prime_source := nofun
      sign_source := fun hn => by rcases hn with hn | hn <;> cases hn }

/-- A success: its values fit a register and its flags are its command's (R37, R165). -/
theorem inv_commit {f : Flight} {i : Instr} {st : Staged} (he : s.engine = .running f) (hd : decode f.cmd = .command i)
    (hr : commandResult i s.width f.snap f.drawn = .success st) : (s.stage st).commit.Inv := by
  have hflight := h.in_flight f he
  have hshape := commandResult_shape i s.width f.snap f.drawn
  have hvalues := commandResult_fits i f.drawn (hflight.snap_eq ▸ h.bank_fits : f.snap.fits s.width)
  rw [hr] at hshape hvalues
  obtain ⟨-, hprime, hsign⟩ := hshape
  rw [hflight.cmd_eq] at hd
  refine inv_of_idle rfl (fits_writeAll h.bank_fits _ hvalues) rfl
    { no_request := rfl
      error_flags := fun hc => absurd rfl hc
      reason_iff := ⟨fun _ => rfl, fun _ => rfl⟩
      no_error_reg := fun _ => rfl
      prime_source := fun hp => ?_
      sign_source := fun hn => ?_ }
  · rcases isPrimalityTest_iff.1 (hprime hp) with ⟨rd, rn, rounds, rfl⟩ | ⟨rd, rn, rw, rounds, rfl⟩
    · exact .inl ⟨rd, rn, rounds, hd⟩
    · exact .inr ⟨rd, rn, rw, rounds, hd⟩
  · obtain ⟨rd, ra, rb, rfl⟩ := isExtendedGcd_iff.1 (hsign hn)
    exact ⟨rd, ra, rb, hd⟩

/-- A request of a command that waits (R41, R100). -/
theorem inv_requestWord {f : Flight} (he : s.engine = .running f) (hw : f.waitsOn f.drawn) : s.requestWord.Inv :=
  inv_of_running he h.bank_fits h.nothing_staged { h.in_flight f he with request_waits := fun _ => hw }

/-- A word offered: the one transferred was waited for (R100, R247). -/
theorem inv_offerWord (w : Word) : (s.offerWord w).Inv := by
  rcases offerWord_cases s w with heq | ⟨f, hreq, he, heq⟩ <;> rw [heq]
  · exact h
  · have hflight := h.in_flight f he
    refine inv_of_running rfl h.bank_fits h.nothing_staged
      { hflight with request_waits := nofun, drawn_needed := fun _ => ?_ }
    rw [List.dropLast_concat]
    exact hflight.request_waits hreq

/-- The engine's move (R154). -/
theorem inv_engineStep {t : State} (hstep : s.engineStep = .next t) : t.Inv := by
  cases he : s.engine with
  | idle =>
    obtain rfl := Host.Outcome.next.inj ((engineStep_idle he).symm.trans hstep)
    exact h
  | running f =>
    rcases engineStep_running_cases he hstep with ⟨i, st, hd, hr, rfl⟩ | ⟨e, hcode, hreason, rfl⟩ | ⟨hw, rfl⟩
    · exact inv_commit h he hd hr
    · exact inv_completeError h hcode hreason
    · exact inv_requestWord h he hw

/-- A host access (R81 to R91). -/
theorem inv_hostAccess (a : Access) : (s.hostAccess a).Inv := by
  obtain ⟨resp, heq | ⟨-, heq⟩ | ⟨v, -, heq⟩ | ⟨v, -, heq⟩ | ⟨v, -, heq⟩ | ⟨ad, r, j, v, -, ht, hb, heq⟩⟩ :=
    hostAccess_cases s a <;> rw [heq]
  case inl => exact inv_environment h s.ie resp s.inputs
  case inr.inl => exact inv_environment (inv_status h id : s.flagBusyAccess.Inv) s.ie resp s.inputs
  case inr.inr.inl => exact inv_environment h _ resp s.inputs
  case inr.inr.inr.inl =>
    have hclear : State.Inv { s with status := s.status.clearWritten v } := inv_status h fun hd => by rw [hd, Bool.false_and]
    exact inv_environment hclear s.ie resp s.inputs
  case inr.inr.inr.inr.inl => exact inv_environment (inv_writeCmd h v) _ resp _
  case inr.inr.inr.inr.inr =>
    have hj := (targetOf_window_range ht).2.2
    have hb' := fits_write h.bank_fits r (setOperandWord_lt (d := v) (h.bank_fits r) hj)
    exact inv_environment (inv_bank h (engine_of_not_busy hb) hb') s.ie resp s.inputs

end Keeps

end Sys2Proof.Machine
end

section
/-! PROOF. The invariant and the whole-machine rules of the bank, CMD and the constants (10_state.md). -/

namespace Sys2Proof.Proofs
open Sys2Proof.Machine Sys2Proof.Claims

/-- Settles O4, by the event of the step: each update it is made of keeps the invariant. -/
theorem everyStepKeepsTheInvariant : Obligations.EveryStepKeepsTheInvariant := by
  intro s t h hstep
  rcases step_cases hstep with ⟨s', hs', hengine⟩ | ⟨a, rest, -, rfl⟩ | ⟨w, rest, -, rfl⟩ | ⟨rest, -, rfl⟩
  · obtain ⟨-, rfl⟩ | ⟨rest, -, rfl⟩ := hs'
    · exact inv_engineStep h hengine
    · exact inv_engineStep (inv_environment h s.ie s.resp rest) hengine
  · exact inv_hostAccess (inv_environment h s.ie s.resp rest) a
  · exact inv_offerWord (inv_environment h s.ie s.resp rest) w
  · exact inv_reset s.width rest

/-- Settles O46, by the event of the step: each names the one way in which it can change the bank. -/
theorem bankChangesOnlyByThreeEvents : Obligations.BankChangesOnlyByThreeEvents := by
  intro s t hstep hx
  rcases step_cases hstep with ⟨s', hs', hengine⟩ | ⟨a, rest, hi, rfl⟩ | ⟨w, rest, -, rfl⟩ | ⟨rest, hi, -⟩
  · have hmove : EngineMoves s ∧ s'.engine = s.engine ∧ s'.x = s.x := by
      obtain ⟨hi, rfl⟩ | ⟨rest, hi, rfl⟩ := hs'
      · exact ⟨.inl hi, rfl, rfl⟩
      · exact ⟨.inr ⟨rest, hi⟩, rfl, rfl⟩
    obtain ⟨hmoves, hsame, hbank⟩ := hmove
    have hcompletes := (engineStep_frame hengine).2.2.resolve_left (hbank ▸ hx)
    exact .inr (.inr ⟨hmoves, hsame ▸ hcompletes⟩)
  · obtain ⟨hidle, ad, v, rfl, hrange⟩ := hostAccess_x hx
    exact .inr (.inl ⟨rest, ad, v, hidle, hi, hrange⟩)
  · exact absurd (offerWord_frame _ w).2.2 hx
  · exact .inl ⟨rest, hi⟩

/-- Settles O47, by the event of the step: only a CMD write while idle and reset touch CMD. -/
theorem cmdChangesOnlyByAnAcceptedWrite : Obligations.CmdChangesOnlyByAnAcceptedWrite := by
  intro s t hstep hc
  rcases step_cases hstep with ⟨s', hs', hengine⟩ | ⟨a, rest, hi, rfl⟩ | ⟨w, rest, -, rfl⟩ | ⟨rest, hi, -⟩
  · have hsame : s'.cmd = s.cmd := by obtain ⟨-, rfl⟩ | ⟨rest, -, rfl⟩ := hs' <;> rfl
    exact absurd ((engineStep_frame hengine).2.1.trans hsame) hc
  · obtain ⟨hidle, ha⟩ := hostAccess_cmd hc
    exact .inr ⟨rest, hidle, hi.trans (congrArg (Input.access · :: rest) ha)⟩
  · exact absurd (offerWord_frame _ w).2.1 hc
  · exact .inl ⟨rest, hi⟩

end Sys2Proof.Proofs
end

section
/-! SUPPORT. The control and status registers as numbers (10_state.md R33 to R39), and one listed host access as a step. -/

namespace Sys2Proof.Machine

/-- A concatenation of bit fields as a number (R16). -/
theorem append_toNat {m n : Nat} (hi : BitVec m) (lo : BitVec n) : (hi ++ lo).toNat = hi.toNat * 2 ^ n + lo.toNat := by
  rw [BitVec.toNat_append, ← Nat.shiftLeft_add_eq_or_of_lt lo.isLt, Nat.shiftLeft_eq]

/-- PARAM holds KMAX 8, NREG 16 and WORDS (R35). -/
theorem paramWord_toNat (w : Width) : (paramWord w).toNat = 8 * 2 ^ 24 + 16 * 2 ^ 16 + w.bits / 32 := by
  cases w <;> rfl

/-- CTRL holds IE alone (R36). -/
theorem ctrlWord_toNat (s : State) : s.ctrlWord.toNat = s.ie.toNat := by
  simp only [State.ctrlWord, append_toNat, BitVec.toNat_ofBool, BitVec.toNat_ofNat]
  omega

/-- ERRINFO holds INDEX, REASON and REG (R39). -/
theorem errInfo_word_toNat (e : ErrInfo) : e.word.toNat = e.index.toNat * 2 ^ 8 + e.reason.code.toNat * 2 ^ 4 + e.reg.val := by
  have := e.reg.isLt
  simp only [ErrInfo.word, append_toNat, BitVec.toNat_ofNat]
  omega

/-- STATUS holds ERRCODE above its eight flags (R37). -/
theorem statusWord_div (s : State) : s.statusWord.toNat / 2 ^ 8 = s.status.errcode.code.toNat := by
  have bit (b : Bool) : (BitVec.ofBool b).toNat < 2 := BitVec.isLt _
  have := bit s.busy; have := bit s.status.done; have := bit s.status.err; have := bit s.status.prime
  have := bit s.status.xneg; have := bit s.status.yneg; have := bit s.status.overrun; have := bit s.status.busyacc
  simp only [State.statusWord, append_toNat, BitVec.toNat_ofNat]
  omega

/-- The eight flags of STATUS (R37). -/
theorem statusWord_flags (s : State) :
    s.statusWord.getLsbD 0 = s.busy ∧ s.statusWord.getLsbD 1 = s.status.done ∧
    s.statusWord.getLsbD 2 = decide (s.status.errcode ≠ .none) ∧ s.statusWord.getLsbD 3 = s.status.prime ∧
    s.statusWord.getLsbD 4 = s.status.xneg ∧ s.statusWord.getLsbD 5 = s.status.yneg ∧
    s.statusWord.getLsbD 6 = s.status.overrun ∧ s.statusWord.getLsbD 7 = s.status.busyacc := by
  have herr : s.status.err = decide (s.status.errcode ≠ .none) := by
    unfold Status.err; cases s.status.errcode <;> rfl
  simp only [State.statusWord, BitVec.getLsbD_append, herr]
  simp

/-- The W1C bits of a STATUS write (R37). -/
theorem clearWritten_eq (st : Status) (v : Word) : st.clearWritten v = { st with
    done := if v.getLsbD 1 then false else st.done
    overrun := if v.getLsbD 6 then false else st.overrun
    busyacc := if v.getLsbD 7 then false else st.busyacc } := by
  have clear (b c : Bool) : (b && !c) = if c then false else b := by cases b <;> cases c <;> rfl
  simp only [Status.clearWritten, clear]

/-- An aligned read below the window changes nothing and answers what its target holds (R81, R91). -/
theorem step_read_register {s : State} {rest : List Input} {a : Addr} (hi : s.inputs = .access (.read a .word) :: rest)
    (hlow : a.toNat < 0x8000) (haligned : a.toNat % 4 = 0) :
    step s = .next { s with inputs := rest, resp := some (.data (s.readTarget (targetOf s.width a))) } := by
  have hadm : accessAdmitted a .word = true := by simp [accessAdmitted, haligned]
  rw [step_event hi, State.handle, hostAccess_read hadm]
  cases ht : targetOf s.width a with
  | window r j => exact absurd (targetOf_window_range ht).1 (by omega)
  | _ => rfl

/-- An aligned write has its target's effect and is acknowledged (R81, R91). -/
theorem step_write {s : State} {rest : List Input} {a : Addr} {v : Word} (hi : s.inputs = .access (.write a .word v) :: rest)
    (haligned : a.toNat % 4 = 0) :
    step s = .next { State.writeTarget { s with inputs := rest } v (targetOf s.width a) with resp := some .ack } := by
  have hadm : accessAdmitted a .word = true := by simp [accessAdmitted, haligned]
  rw [step_event hi, State.handle, hostAccess_write hadm]

end Sys2Proof.Machine
end

section
/-! PROOF. Reset values, and what reads and writes of the control and status registers do (10_state.md R31 to R43). -/

namespace Sys2Proof.Proofs
open Sys2Proof.Machine Sys2Proof.Claims

/-- The reset state of every width holds the values of R43, whatever comes next. -/
theorem hasResetValues_resetAt (w : Width) (es : List Input) : HasResetValues { State.resetAt w with inputs := es } where
  bank := read_zero
  id := rfl
  param := paramWord_toNat w
  ctrl := by show State.reset.ctrlWord = 0; decide
  status := by show State.reset.statusWord = 0; decide
  cmd := rfl
  errinfo := by show ErrInfo.zero.word = 0; decide
  phase := rfl
  staged := rfl
  rnd_req := rfl
  irq := rfl

/-- Settles O1: the `rst` input leads to the reset state of the same width. -/
theorem resetLeavesTheListedValues : Obligations.ResetLeavesTheListedValues := by
  refine ⟨fun s rest hi => ?_, fun w => hasResetValues_resetAt w [], hasResetValues_resetAt Config.resetWidth []⟩
  exact ⟨_, step_event hi, rfl, hasResetValues_resetAt s.width rest⟩

/-- Settles O3. -/
theorem resetStateHasTheInvariant : Obligations.ResetStateHasTheInvariant :=
  ⟨fun w => inv_reset w [], inv_reset Config.resetWidth []⟩

/-- Settles O40: the read answers what its target holds, and each register's word is read field by field. -/
theorem registerReadsReturnTheirFields : Obligations.RegisterReadsReturnTheirFields := by
  refine ⟨fun s rest a hlow hi haligned => ?_, by decide, by decide⟩
  refine ⟨_, step_read_register hi (by omega) haligned, ?_, ?_, ?_, ?_, ?_, ?_⟩ <;> rintro rfl
  · rfl
  · exact paramWord_toNat s.width
  · exact ctrlWord_toNat s
  · exact ⟨statusWord_div s, statusWord_flags s⟩
  · rfl
  · exact errInfo_word_toNat s.errinfo

/-- Settles O41: each write has its target's effect. -/
theorem registerWritesChangeTheirFieldsOnly : Obligations.RegisterWritesChangeTheirFieldsOnly := by
  refine fun s rest v => ⟨fun hi => step_write hi rfl, fun hi => ?_, fun a ha hi => ?_⟩
  · rw [← clearWritten_eq]
    exact step_write hi rfl
  · simp only [List.mem_cons, List.not_mem_nil, or_false] at ha
    obtain rfl | rfl | rfl := ha <;> exact step_write hi rfl

/-- Settles O51: ID is a constant, and PARAM follows the width, which no step changes. -/
theorem constantsNeverChange : Obligations.ConstantsNeverChange := by
  intro s t hstep
  have hwidth := step_width hstep
  exact ⟨hwidth, rfl, rfl, paramWord_toNat s.width, congrArg paramWord hwidth⟩

end Sys2Proof.Proofs
end

section
/-! SUPPORT. The host port and the random-word port as steps (20_memory.md R81 to R100): an access that is not admitted, an aligned
access by its target, the window words, and the load of an operand word by word. -/

namespace Sys2Proof.Machine
open Sys2Proof.Claims

theorem busy_of_idle {s : State} (he : s.engine = .idle) : s.busy = false := by
  rw [State.busy, he, busy_idle]

theorem busy_of_running {s : State} {f : Flight} (he : s.engine = .running f) : s.busy = true := by
  rw [State.busy, he, busy_running]

/-- A narrow or unaligned access is not admitted (R81). -/
theorem not_accessAdmitted {a : Addr} {size : Size} (h : size ≠ .word ∨ a.toNat % 4 ≠ 0) : ¬ accessAdmitted a size = true := by
  simpa [accessAdmitted, or_iff_not_imp_left] using h

/-- An aligned read has its target's effect and answers what its target holds (R81, R91). -/
theorem step_read {s : State} {rest : List Input} {a : Addr} (hi : s.inputs = .access (.read a .word) :: rest)
    (haligned : a.toNat % 4 = 0) :
    step s = .next { State.afterRead { s with inputs := rest } (targetOf s.width a) with
      resp := some (.data (s.readTarget (targetOf s.width a))) } := by
  have hadm : accessAdmitted a .word = true := by simp [accessAdmitted, haligned]
  rw [step_event hi, State.handle, hostAccess_read hadm]
  rfl

/-- The address of a window word selects it, and is aligned (R84). -/
theorem targetOf_wordAddr {w : Width} (r : Reg) {j : Nat} (hj : j < w.bits / 32) :
    targetOf w (wordAddr w r j) = .window r j ∧ (wordAddr w r j).toNat % 4 = 0 :=
  targetOf_window hj (windowAddr_toNat hj)

section WindowStep
variable {s : State} {rest : List Input} {r : Reg} {j : Nat} (hj : j < s.width.bits / 32)
include hj

/-- A window read while BUSY = 0 answers the word and changes nothing (R84, R85). -/
theorem step_read_window_idle (he : s.engine = .idle)
    (hi : s.inputs = .access (.read (wordAddr s.width r j) .word) :: rest) :
    step s = .next { s with inputs := rest, resp := some (.data (operandWord (s.x.read r) j)) } := by
  obtain ⟨ht, haligned⟩ := targetOf_wordAddr r hj
  have hb : State.busy { s with inputs := rest } = false := busy_of_idle he
  simp only [step_read hi haligned, ht, State.afterRead, State.readTarget, hb, busy_of_idle he, Bool.false_eq_true, if_false]

/-- A window write while BUSY = 0 replaces the word (R85). -/
theorem step_write_window_idle {v : Word} (he : s.engine = .idle)
    (hi : s.inputs = .access (.write (wordAddr s.width r j) .word v) :: rest) :
    step s = .next { s with
      x := s.x.write r (setOperandWord (s.x.read r) j v), inputs := rest, resp := some .ack } := by
  obtain ⟨ht, haligned⟩ := targetOf_wordAddr r hj
  have hb : State.busy { s with inputs := rest } = false := busy_of_idle he
  simp only [step_write hi haligned, ht, State.writeTarget, hb, Bool.false_eq_true, if_false]

/-- A window read while BUSY = 1 answers 0 and sets BUSYACC (R87). -/
theorem step_read_window_busy {f : Flight} (he : s.engine = .running f)
    (hi : s.inputs = .access (.read (wordAddr s.width r j) .word) :: rest) :
    step s = .next { s with
      status := { s.status with busyacc := true }, inputs := rest, resp := some (.data 0) } := by
  obtain ⟨ht, haligned⟩ := targetOf_wordAddr r hj
  have hb : State.busy { s with inputs := rest } = true := busy_of_running he
  simp only [step_read hi haligned, ht, State.afterRead, State.readTarget, hb, busy_of_running he, if_true,
    State.flagBusyAccess]

/-- A window write while BUSY = 1 sets BUSYACC and is ignored (R87). -/
theorem step_write_window_busy {f : Flight} {v : Word} (he : s.engine = .running f)
    (hi : s.inputs = .access (.write (wordAddr s.width r j) .word v) :: rest) :
    step s = .next { s with
      status := { s.status with busyacc := true }, inputs := rest, resp := some .ack } := by
  obtain ⟨ht, haligned⟩ := targetOf_wordAddr r hj
  have hb : State.busy { s with inputs := rest } = true := busy_of_running he
  simp only [step_write hi haligned, ht, State.writeTarget, hb, if_true, State.flagBusyAccess]

end WindowStep

/-- A word offered to a command that asks for it is transferred (R100). -/
theorem offerWord_requested {s : State} {f : Flight} (hr : s.rndReq = true) (he : s.engine = .running f) (w : Word) :
    s.offerWord w = { s with engine := .running { f with drawn := f.drawn ++ [w] }, rndReq := false } := by
  simp only [State.offerWord, hr, he]

/-- Without a request no word is transferred (R100). -/
theorem offerWord_not_requested {s : State} (hr : s.rndReq = false) (w : Word) : s.offerWord w = s := by
  simp only [State.offerWord, hr]

/-- A later write to a register replaces an earlier one (R17). -/
@[simp] theorem write_write (b : Bank) (r : Reg) (u v : Nat) : (b.write r u).write r v = b.write r v :=
  bank_ext fun q => by simp only [read_write]; split <;> rfl

/-- The operand `u` after the words of `v` listed in `order` have replaced its own, one by one (R85). -/
def storeWords (v : Nat) (order : List Nat) (u : Nat) : Nat :=
  order.foldl (fun u j => setOperandWord u j (operandWord v j)) u

theorem storeWords_cons (v j : Nat) (js : List Nat) (u : Nat) :
    storeWords v (j :: js) u = storeWords v js (setOperandWord u j (operandWord v j)) := rfl

/-- A bit in a word that was stored is the new operand's, every other bit the old one's. -/
theorem storeWords_testBit (v : Nat) (order : List Nat) (u i : Nat) :
    (storeWords v order u).testBit i = if i / 32 ∈ order then v.testBit i else u.testBit i := by
  induction order generalizing u with
  | nil => simp [storeWords]
  | cons j order ih =>
    have hword : (setOperandWord u j (operandWord v j)).testBit i = if i / 32 = j then v.testBit i else u.testBit i := by
      rw [setOperandWord_testBit]
      by_cases hi : i / 32 = j
      · have hbit : i - 32 * j < 32 ∧ 32 * j + (i - 32 * j) = i := by omega
        rw [if_pos (by omega), if_pos hi, operandWord_getLsbD, hbit.2, decide_eq_true hbit.1, Bool.true_and]
      · rw [if_neg (by omega), if_neg hi]
    rw [storeWords_cons, ih, hword]
    by_cases hi : i / 32 = j <;> simp [hi]

/-- Storing every word of an operand below `2^W` leaves that operand, whatever the register held (R85). -/
theorem storeWords_of_perm {w : Width} {u v : Nat} {order : List Nat} (hu : u < w.bound) (hv : v < w.bound)
    (hperm : order.Perm (List.range w.words)) : storeWords v order u = v := by
  refine Nat.eq_of_testBit_eq fun i => ?_
  rw [storeWords_testBit]
  by_cases hi : i / 32 ∈ order
  · rw [if_pos hi]
  · rw [hperm.mem_iff, List.mem_range] at hi
    obtain ⟨-, hsize, -⟩ := width_sizes w
    have hhigh {n : Nat} (hn : n < w.bound) : n.testBit i = false :=
      Nat.testBit_lt_two_pow (hn.trans_le (Nat.pow_le_pow_right (by decide) (by omega)))
    rw [hhigh hu, hhigh hv, ite_self]

/-- A run takes its first step and goes on from there. -/
theorem run_succ {s t : State} (n : Nat) (h : step s = .next t) : core.run (n + 1) s = core.run n t := by
  simp only [Host.Core.run, show core.step s = .next t from h]

/-- The window write of word `j` of `v` to register `r`. -/
def storeWord (w : Width) (r : Reg) (v j : Nat) : Input := .access (.write (wordAddr w r j) .word (operandWord v j))

/-- While idle, a run over window writes of words of `v` stores them one after the other and does nothing else (R85). -/
theorem run_storeWords {s : State} {rest : List Input} {r : Reg} {v j : Nat} {js : List Nat} (he : s.engine = .idle)
    (hrange : ∀ k ∈ j :: js, k < s.width.bits / 32)
    (hi : s.inputs = (j :: js).map (storeWord s.width r v) ++ rest) :
    core.run (js.length + 1) s = .next { s with
      x := s.x.write r (storeWords v (j :: js) (s.x.read r)), inputs := rest, resp := some .ack } := by
  induction js generalizing s j with
  | nil => exact run_succ 0 (step_write_window_idle (hrange j List.mem_cons_self) he hi)
  | cons k js ih =>
    have hrest : ∀ i ∈ k :: js, i < s.width.bits / 32 := fun i hmem => hrange i (List.mem_cons_of_mem j hmem)
    rw [List.length_cons, run_succ _ (step_write_window_idle (hrange j List.mem_cons_self) he hi)]
    refine (ih (j := k) ?_ ?_ ?_).trans ?_
    · exact he
    · exact hrest
    · rfl
    · simp only [storeWords_cons v j, read_write_same, write_write]

end Sys2Proof.Machine
end

section
/-! PROOF. The host port and the random-word port (20_memory.md). -/

namespace Sys2Proof.Proofs
open Sys2Proof.Machine Sys2Proof.Claims

/-- Settles O35: a completion withdraws the request, so the step was one that asks for a word. -/
theorem onlyRandomTestsRequestWords : Obligations.OnlyRandomTestsRequestWords := by
  intro s t f he hstep hreq
  rcases engineStep_running_cases he hstep with ⟨i, st, -, -, rfl⟩ | ⟨e, -, -, rfl⟩ | ⟨⟨rd, rn, rounds, hd, -⟩, rfl⟩
  · rw [commit_stage_rndReq] at hreq
    cases hreq
  · rw [completeError_rndReq] at hreq
    cases hreq
  · exact ⟨⟨rd, rn, rounds, hd⟩, rfl⟩

/-- Settles O38: the word read and the register written, bit by bit. -/
theorem windowAccessesWordsWhileIdle : Obligations.WindowAccessesWordsWhileIdle := by
  intro s rest r j v he hj
  refine ⟨fun hi => ⟨_, fun i hlt => ?_, step_read_window_idle hj he hi⟩,
    fun hi => ⟨_, fun i => setOperandWord_testBit (s.x.read r) j v i, step_write_window_idle hj he hi⟩⟩
  rw [operandWord_getLsbD, decide_eq_true hlt, Bool.true_and, Bank.read]

/-- Settles O45: the run stores every word of the value, which determines the register in whatever order they came. -/
theorem loadingAnOperandInAnyOrderSetsIt : Obligations.LoadingAnOperandInAnyOrderSetsIt := by
  intro s rest r v order he hfits hv hperm hi
  have hlength : s.width.bits / 32 = order.length := by rw [hperm.length_eq, List.length_range]
  have hrange : ∀ k ∈ order, k < s.width.bits / 32 := fun k hk => List.mem_range.1 (hperm.mem_iff.1 hk)
  have hstored := storeWords_of_perm (hfits r) hv hperm
  cases order with
  | nil =>
    obtain ⟨-, -, hwords, -⟩ := width_sizes s.width
    rw [Width.words, hlength, List.length_nil] at hwords
    omega
  | cons j js =>
    rw [hlength, List.length_cons, run_storeWords he hrange hi, hstored]
    rfl

/-- Settles O36: the access is not admitted, and only its response is left. -/
theorem busErrorsHaveNoEffect : Obligations.BusErrorsHaveNoEffect := by
  intro s rest a size v h
  obtain ⟨hread, hwrite⟩ := hostAccess_busError (s := { s with inputs := rest }) (not_accessAdmitted h)
  refine ⟨fun hi => ?_, fun hi => ?_⟩
  · rw [step_event hi, State.handle, hread]
  · rw [step_event hi, State.handle, hwrite]

/-- Settles O37: such an address selects no register and no window word. -/
theorem reservedAddressesReadZeroAndIgnoreWrites : Obligations.ReservedAddressesReadZeroAndIgnoreWrites := by
  intro s rest a v hreserved haligned
  have ht : targetOf s.width a = .reserved := targetOf_reserved hreserved
  refine ⟨fun hi => ?_, fun hi => ?_⟩
  · rw [step_read hi haligned, ht]
    rfl
  · rw [step_write hi haligned, ht]
    rfl

/-- Settles O39: the window steps of a busy block. -/
theorem windowRejectsAccessesWhileBusy : Obligations.WindowRejectsAccessesWhileBusy :=
  fun _ _ _ _ _ _ he hj => ⟨step_read_window_busy hj he, step_write_window_busy hj he⟩

/-- Settles O44: the offer is the whole step. -/
theorem randomWordsAreTransferredOnRequest : Obligations.RandomWordsAreTransferredOnRequest := by
  intro s rest w hi
  refine ⟨fun f hr he => ?_, fun hr => ?_⟩
  · rw [step_event hi, State.handle, offerWord_requested (s := { s with inputs := rest }) hr he]
  · rw [step_event hi, State.handle, offerWord_not_requested (s := { s with inputs := rest }) hr]

end Sys2Proof.Proofs
end

section
/-! SUPPORT. The decoder and the encoder as inverses of each other (30_encoding.md R121 to R128): no two rows overlap, a row that selects a
word decides what it decodes to, a word is rebuilt from its fields, and what an ILLEGAL word in flight comes to. -/

namespace Sys2Proof
open Sys2Proof.Claims Sys2Proof.Laws

/-! ### The rows (R126, R127) -/

theorem selects_iff_mask (r : EncodingRow) (w : Word) : r.selects w = true ↔ w &&& r.mask = r.pattern := beq_iff_eq

theorem encodingRows_columns : (encodingRows.map fun r => (r.pattern, r.mask)) = maskTable := rfl

/-- Two rows whose match values differ under both masks select no common word. -/
theorem not_both_masked {p m q n : Word} (h : p &&& n ≠ q &&& m) (w : Word) : ¬ (w &&& m = p ∧ w &&& n = q) := by
  rintro ⟨rfl, rfl⟩
  exact h (by rw [BitVec.and_assoc, BitVec.and_assoc, BitVec.and_comm m n])

/-- No two rows of R126 overlap. -/
theorem maskTable_disjoint : maskTable.Pairwise fun a b => ∀ w : Word, ¬ (w &&& a.2 = a.1 ∧ w &&& b.2 = b.1) := by
  have differ : maskTable.Pairwise fun a b => a.1 &&& b.2 ≠ b.1 &&& a.2 := by decide
  exact differ.imp fun h => not_both_masked h

/-- No word is selected by two of the decoder's rows (R127). -/
theorem encodingRows_disjoint :
    encodingRows.Pairwise fun a b => ∀ w : Word, ¬ (a.selects w = true ∧ b.selects w = true) := by
  have h := maskTable_disjoint
  rw [← encodingRows_columns, List.pairwise_map] at h
  simpa only [selects_iff_mask] using h

/-- Where no two rows overlap, the row that selects a word is the one found. -/
theorem decodeBy_of_selects {rows : List EncodingRow} {r : EncodingRow} {w : Word}
    (hdisjoint : rows.Pairwise fun a b => ∀ w : Word, ¬ (a.selects w = true ∧ b.selects w = true))
    (hr : r ∈ rows) (hs : r.selects w = true) : decodeBy rows w = .command (r.build w) := by
  induction rows with
  | nil => cases hr
  | cons a rest ih =>
    obtain ⟨hfirst, hrest⟩ := List.pairwise_cons.1 hdisjoint
    rcases List.mem_cons.1 hr with rfl | hmem
    · rw [decodeBy, if_pos hs]
    · rw [decodeBy, if_neg fun ha => hfirst r hmem w ⟨ha, hs⟩, ih hrest hmem]

/-- A word no row selects decodes to no command. -/
theorem decodeBy_of_no_row {rows : List EncodingRow} {w : Word} (h : ∀ r ∈ rows, ¬ r.selects w = true) :
    ∃ why, decodeBy rows w = .illegal why := by
  induction rows with
  | nil => exact ⟨_, (apply_ite Decoded.illegal _ _ _).symm⟩
  | cons a rest ih =>
    obtain ⟨hfirst, hrest⟩ := List.forall_mem_cons.1 h
    rw [decodeBy, if_neg hfirst]
    exact ih hrest

/-- A word with the match value of row `n` decodes to the command of that row (R126, R127). -/
theorem decode_of_row (n : Fin 11) {w : Word} (h : w &&& (encodingRows.get n).mask = (encodingRows.get n).pattern) :
    decode w = .command ((encodingRows.get n).build w) :=
  decodeBy_of_selects encodingRows_disjoint (List.get_mem encodingRows n) ((selects_iff_mask _ w).2 h)

/-- A word with no row's match value decodes to no command (R127). -/
theorem decode_of_no_row {w : Word} (h : ∀ r ∈ maskTable, w &&& r.2 ≠ r.1) : ∃ why, decode w = .illegal why := by
  rw [← encodingRows_columns, List.forall_mem_map] at h
  exact decodeBy_of_no_row fun r hr hs => h r hr ((selects_iff_mask r w).1 hs)

/-! ### The fields (R121, R122) -/

/-- The fields of an assembled word are the fields it was assembled from (R121, R124). -/
theorem fields_commandWord {opc imm : Nat} (rd rs1 rs2 rs3 : Reg) (ho : opc < 32) (hi : imm < 2048) :
    fieldRd (commandWord opc rd rs1 rs2 rs3 imm) = rd ∧ fieldRs1 (commandWord opc rd rs1 rs2 rs3 imm) = rs1 ∧
    fieldRs2 (commandWord opc rd rs1 rs2 rs3 imm) = rs2 ∧ fieldRs3 (commandWord opc rd rs1 rs2 rs3 imm) = rs3 ∧
    fieldK (commandWord opc rd rs1 rs2 rs3 imm) = imm % 16 ∧ fieldRounds (commandWord opc rd rs1 rs2 rs3 imm) = imm % 1024 := by
  obtain ⟨-, hrd, hrs1, hrs2, hrs3, hk, hrounds⟩ := field_values (commandWord opc rd rs1 rs2 rs3 imm)
  rw [commandWord_toNat rd rs1 rs2 rs3 ho hi] at hrd hrs1 hrs2 hrs3 hk hrounds
  refine ⟨Fin.ext (hrd.trans ?_), Fin.ext (hrs1.trans ?_), Fin.ext (hrs2.trans ?_), Fin.ext (hrs3.trans ?_), hk.trans ?_,
    hrounds.trans ?_⟩
  all_goals
    clear hrd hrs1 hrs2 hrs3 hk hrounds
    omega

/-- The row of a command, by its place in the table of R126. -/
def rowIndex : Instr → Fin 11
  | .modmul _ _ _ _ => 0
  | .modpow _ _ _ _ => 1
  | .gcd _ _ _ => 2
  | .bgcd _ _ _ => 3
  | .xgcd _ _ _ => 4
  | .modinv _ _ _ => 5
  | .crt _ _ _ _ => 6
  | .mrtestRandom _ _ _ => 7
  | .mrtestRegs _ _ _ _ => 8
  | .bitlen _ _ => 9
  | .lsb _ _ => 10

/-- The word of a well-formed command is selected by the command's row (R126). -/
theorem encode_masked {i : Instr} (h : i.wellFormed = true) :
    encode i &&& (encodingRows.get (rowIndex i)).mask = (encodingRows.get (rowIndex i)).pattern := by
  cases i with
  | modmul rd ra rb rm => exact EncodeSelectsItsRow.modmul rd ra rb rm h
  | modpow rd rn re rm => exact EncodeSelectsItsRow.modpow rd rn re rm h
  | gcd rd ra rb => exact EncodeSelectsItsRow.gcd rd ra rb h
  | bgcd rd ra rb => exact EncodeSelectsItsRow.bgcd rd ra rb h
  | xgcd rd ra rb => exact EncodeSelectsItsRow.xgcd rd ra rb h
  | modinv rd rn rm => exact EncodeSelectsItsRow.modinv rd rn rm h
  | crt rd rx rm k => exact EncodeSelectsItsRow.crt rd rx rm k h
  | mrtestRandom rd rn rounds => exact EncodeSelectsItsRow.mrtestRandom rd rn rounds h
  | mrtestRegs rd rn rw rounds => exact EncodeSelectsItsRow.mrtestRegs rd rn rw rounds h
  | bitlen rd rn => exact EncodeSelectsItsRow.bitlen rd rn h
  | lsb rd rn => exact EncodeSelectsItsRow.lsb rd rn h

/-- A command's row reads its operands back from its word (R121, R122, R124, R131). -/
theorem build_encode {i : Instr} (h : i.wellFormed = true) : (encodingRows.get (rowIndex i)).build (encode i) = i := by
  cases i with
  | crt rd rx rm k =>
    have hk : k < 16 := of_decide_eq_true h
    simp (disch := omega) [rowIndex, encodingRows, encode, fields_commandWord, Nat.mod_eq_of_lt]
  | mrtestRandom rd rn rounds =>
    have hr : rounds < 1024 := of_decide_eq_true h
    simp (disch := omega) [rowIndex, encodingRows, encode, fields_commandWord, Nat.mod_eq_of_lt]
  | mrtestRegs rd rn rw rounds =>
    have hr : rounds < 1024 := of_decide_eq_true h
    simp (disch := omega) [rowIndex, encodingRows, encode, fields_commandWord, EncodeSelectsItsRow.wsrc_or hr, Nat.mod_eq_of_lt]
  | _ => simp (disch := omega) [rowIndex, encodingRows, encode, fields_commandWord]

/-- The decoder undoes the encoder (R121, R127). -/
theorem decode_encode {i : Instr} (h : i.wellFormed = true) : decode (encode i) = .command i := by
  rw [decode_of_row (rowIndex i) (encode_masked h), build_encode h]

/-! ### Rebuilding a word from its fields (R121) -/

/-- A word is assembled from its opcode, RD, RS1 and what spells its low 19 bits. -/
theorem commandWord_of_fields {w : Word} {opc imm : Nat} {rs2 rs3 : Reg} (ho : w.toNat / 2 ^ 27 = opc)
    (hrs2 : w.toNat / 2 ^ 15 % 16 = rs2.val) (hrs3 : w.toNat / 2 ^ 11 % 16 = rs3.val) (himm : w.toNat % 2 ^ 11 = imm) :
    commandWord opc (fieldRd w) (fieldRs1 w) rs2 rs3 imm = w := by
  obtain ⟨-, hrd, hrs1, -⟩ := field_values w
  have hw : w.toNat < 2 ^ 32 := w.isLt
  rw [← BitVec.toNat_inj, commandWord_toNat _ _ _ _ (by omega) (by omega), hrd, hrs1, ← hrs2, ← hrs3]
  omega

/-- The encoder undoes the decoder: the bits that spell no field are 0 in the word, as its row demands (R126). -/
theorem encode_of_decode {w : Word} {i : Instr} (h : decode w = .command i) : encode i = w := by
  obtain ⟨-, -, -, hrs2, hrs3, hk, hrounds⟩ := field_values w
  have hround : fieldRounds w < 1024 := BitVec.isLt _
  rcases decode_cases w with ⟨⟨ho, hlow⟩, hd⟩ | ⟨⟨ho, hlow⟩, hd⟩ | ⟨⟨ho, hlow⟩, hd⟩ | ⟨⟨ho, hlow⟩, hd⟩ | ⟨⟨ho, hlow⟩, hd⟩ |
    ⟨⟨ho, hlow⟩, hd⟩ | ⟨⟨ho, hlow⟩, hd⟩ | ⟨⟨ho, hlow⟩, hd⟩ | ⟨⟨ho, hlow⟩, hd⟩ | ⟨⟨ho, hlow⟩, hd⟩ | ⟨⟨ho, hlow⟩, hd⟩ | ⟨-, hd⟩ |
    ⟨-, hd⟩ <;> cases hd.symm.trans h
  all_goals
    simp only [encode, EncodeSelectsItsRow.wsrc_or hround]
    apply commandWord_of_fields ho <;> omega

/-- A count read from a word fits its field (R124). -/
theorem wellFormed_of_decode {w : Word} {i : Instr} (h : decode w = .command i) : i.wellFormed = true := by
  have hk : fieldK w < 16 := BitVec.isLt _
  have hrounds : fieldRounds w < 1024 := BitVec.isLt _
  rcases decode_cases w with ⟨-, hd⟩ | ⟨-, hd⟩ | ⟨-, hd⟩ | ⟨-, hd⟩ | ⟨-, hd⟩ | ⟨-, hd⟩ | ⟨-, hd⟩ | ⟨-, hd⟩ | ⟨-, hd⟩ | ⟨-, hd⟩ |
    ⟨-, hd⟩ | ⟨-, hd⟩ | ⟨-, hd⟩ <;> cases hd.symm.trans h
  all_goals simp only [Instr.wellFormed, decide_eq_true_eq, hk, hrounds]

/-- The register fields as the claims read them from the word's number (R122). -/
theorem field_eq (w : Word) :
    field w 23 = fieldRd w ∧ field w 19 = fieldRs1 w ∧ field w 15 = fieldRs2 w ∧ field w 11 = fieldRs3 w := by
  obtain ⟨-, hrd, hrs1, hrs2, hrs3, -⟩ := field_values w
  exact ⟨Fin.ext hrd.symm, Fin.ext hrs1.symm, Fin.ext hrs2.symm, Fin.ext hrs3.symm⟩

/-! ### ILLEGAL words (R127, R128) -/

/-- A word is rejected for its opcode exactly when the opcode is reserved (R128). -/
theorem decode_eq_reservedOpcode_iff (w : Word) :
    decode w = .illegal .reservedOpcode ↔ w.toNat / 2 ^ 27 = 0 ∨ 11 ≤ w.toNat / 2 ^ 27 := by
  rcases decode_cases w with ⟨h, hd⟩ | ⟨h, hd⟩ | ⟨h, hd⟩ | ⟨h, hd⟩ | ⟨h, hd⟩ | ⟨h, hd⟩ | ⟨h, hd⟩ | ⟨h, hd⟩ | ⟨h, hd⟩ | ⟨h, hd⟩ |
    ⟨h, hd⟩ | ⟨h, hd⟩ | ⟨h, hd⟩
  all_goals
    simp only [hd, Decoded.illegal.injEq, reduceCtorEq, true_iff, false_iff]
    omega

/-- The reason of a word no row selects is settled by its opcode (R127). -/
theorem decode_eq_of_no_row {w : Word} (h : ∀ r ∈ maskTable, w &&& r.2 ≠ r.1) :
    decode w = .illegal (if w.toNat / 2 ^ 27 = 0 ∨ 11 ≤ w.toNat / 2 ^ 27 then .reservedOpcode else .reservedField) := by
  obtain ⟨why, hd⟩ := decode_of_no_row h
  have hopc := decode_eq_reservedOpcode_iff w
  rw [hd] at hopc ⊢
  cases why with
  | reservedOpcode => rw [if_pos (hopc.1 rfl)]
  | reservedField => rw [if_neg fun hreserved => by cases hopc.2 hreserved]

/-- A word of an opcode of R126 whose must-be-zero bits are not all 0 is rejected for them (R127). -/
theorem decode_of_nonzero_field {w : Word}
    (h : ((w.toNat / 2 ^ 27 = 1 ∨ w.toNat / 2 ^ 27 = 2) ∧ w.toNat % 2 ^ 11 ≠ 0) ∨
      ((3 ≤ w.toNat / 2 ^ 27 ∧ w.toNat / 2 ^ 27 ≤ 6) ∧ w.toNat % 2 ^ 15 ≠ 0) ∨
      (w.toNat / 2 ^ 27 = 7 ∧ w.toNat / 2 ^ 4 % 2 ^ 11 ≠ 0) ∨
      (w.toNat / 2 ^ 27 = 8 ∧ (w.toNat / 2 ^ 11 % 2 ^ 4 ≠ 0 ∨ w.toNat / 2 ^ 10 % 2 = 0 ∧ w.toNat / 2 ^ 15 % 2 ^ 4 ≠ 0)) ∨
      ((w.toNat / 2 ^ 27 = 9 ∨ w.toNat / 2 ^ 27 = 10) ∧ w.toNat % 2 ^ 19 ≠ 0)) :
    decode w = .illegal .reservedField := by
  rcases decode_cases w with ⟨hrow, -⟩ | ⟨hrow, -⟩ | ⟨hrow, -⟩ | ⟨hrow, -⟩ | ⟨hrow, -⟩ | ⟨hrow, -⟩ | ⟨hrow, -⟩ | ⟨hrow, -⟩ |
    ⟨hrow, -⟩ | ⟨hrow, -⟩ | ⟨hrow, -⟩ | ⟨hrow, -⟩ | ⟨-, hd⟩
  case inr.inr.inr.inr.inr.inr.inr.inr.inr.inr.inr.inr => exact hd
  all_goals omega

/-- A field is not 0 as a bit vector exactly when it is not 0 as a number. -/
theorem extract_ne_zero_iff (w : Word) (lo len : Nat) : w.extractLsb' lo len ≠ 0 ↔ w.toNat / 2 ^ lo % 2 ^ len ≠ 0 := by
  rw [Ne, ← BitVec.toNat_inj, extract_toNat]
  rfl

theorem extract_low_ne_zero_iff (w : Word) (len : Nat) : w.extractLsb' 0 len ≠ 0 ↔ w.toNat % 2 ^ len ≠ 0 := by
  rw [extract_ne_zero_iff, pow_zero, Nat.div_one]

theorem getLsbD_eq_false_iff (w : Word) (i : Nat) : w.getLsbD i = false ↔ w.toNat / 2 ^ i % 2 = 0 := by
  rw [← BitVec.testBit_toNat, Nat.testBit_eq_decide_div_mod_eq, decide_eq_false_iff_not]
  omega

end Sys2Proof

namespace Sys2Proof.Machine
open Sys2Proof.Claims

/-- An ILLEGAL word in flight completes with its error (R127, R157). -/
theorem engineStep_illegal {s : State} {f : Flight} {why : IllegalWord} (he : s.engine = .running f)
    (hd : decode f.cmd = .illegal why) : s.engineStep = .next (s.completeError (illegalError why)) := by
  rw [engineStep_running he, hd]

/-- The opcode's words with a nonzero must-be-zero field are rejected when the decoder rejects each of them. -/
theorem rejectsField_of_decode {opc : Nat} {nonzero : Word → Prop}
    (h : ∀ w : Word, w.toNat / 2 ^ 27 = opc → nonzero w → decode w = .illegal .reservedField) : RejectsField opc nonzero :=
  fun _ f he hopc hnonzero => engineStep_illegal he (h f.cmd hopc hnonzero)

end Sys2Proof.Machine
end

section
/-! PROOF. The encoding (30_encoding.md R121 to R142). -/

namespace Sys2Proof.Proofs
open Sys2Proof.Machine Sys2Proof.Claims

/-- Settles O6: the command's row selects the word and reads its fields back. -/
theorem encodedCommandsDecodeBack : Obligations.EncodedCommandsDecodeBack :=
  fun _ h => decode_encode h

/-- Settles O7: the word is rebuilt from the fields it was decoded by. -/
theorem decodedWordsAreTheirEncodings : Obligations.DecodedWordsAreTheirEncodings :=
  fun _ _ h => ⟨wellFormed_of_decode h, encode_of_decode h⟩

/-- Settles O9: the row that selects a word is the only one, and a word without a row is ILLEGAL. -/
theorem decodeReadsTheFieldsOfEachRow : Obligations.DecodeReadsTheFieldsOfEachRow := by
  refine ⟨fun w => ?_, maskTable_disjoint, fun s f he => ⟨engineStep_illegal he, engineStep_illegal he⟩⟩
  obtain ⟨hrd, hrs1, hrs2, hrs3⟩ := field_eq w
  obtain ⟨-, -, -, -, -, hk, hrounds⟩ := field_values w
  rw [hrd, hrs1, hrs2, hrs3, ← hk, ← hrounds]
  exact ⟨decode_of_row 0, decode_of_row 1, decode_of_row 2, decode_of_row 3, decode_of_row 4, decode_of_row 5, decode_of_row 6,
    decode_of_row 7, decode_of_row 8, decode_of_row 9, decode_of_row 10, decode_eq_of_no_row⟩

/-- Settles O8: the encoder, the decoder and the assembler are run on the eleven lines. -/
theorem listedExamplesHaveTheirWords : Obligations.ListedExamplesHaveTheirWords := by
  unfold Obligations.ListedExamplesHaveTheirWords
  decide

/-- Settles O10: the assembler's arms of R140. -/
theorem pseudoInstructionsAreTheirExpansions : Obligations.PseudoInstructionsAreTheirExpansions :=
  fun _ _ _ _ _ => ⟨rfl, rfl, rfl, rfl, rfl, rfl⟩

/-- Settles O11: the columns are read off, and two rows' match values differ under both masks. -/
theorem encodingRowsDoNotOverlap : Obligations.EncodingRowsDoNotOverlap :=
  ⟨encodingRows_columns, fun r _ w => selects_iff_mask r w, encodingRows_disjoint⟩

/-- Settles O12: such a word decodes to RESERVED_OPCODE, and no other does. -/
theorem reservedOpcodesCompleteIllegal : Obligations.ReservedOpcodesCompleteIllegal := by
  refine ⟨fun s f he hopc => engineStep_illegal he ((decode_eq_reservedOpcode_iff f.cmd).2 ?_), decode_eq_reservedOpcode_iff⟩
  rw [Set.mem_Icc] at hopc
  omega

/-- Settles O13: such a word has the fixed bits of no row, and its opcode is not reserved. -/
theorem nonzeroReservedFieldsCompleteIllegal : Obligations.NonzeroReservedFieldsCompleteIllegal := by
  have low {w : Word} {len : Nat} : w.extractLsb' 0 len ≠ 0 → w.toNat % 2 ^ len ≠ 0 := (extract_low_ne_zero_iff w len).1
  have range {w : Word} {lo len : Nat} : w.extractLsb' lo len ≠ 0 → w.toNat / 2 ^ lo % 2 ^ len ≠ 0 := (extract_ne_zero_iff w lo len).1
  refine ⟨fun opc hmem => ?_, fun opc hmem => ?_, ?_, ?_, fun opc hmem => ?_⟩ <;>
    refine rejectsField_of_decode fun w hopc hnonzero => decode_of_nonzero_field ?_
  · exact .inl ⟨by rw [hopc]; simpa using hmem, low hnonzero⟩
  · simp only [List.mem_cons, List.not_mem_nil, or_false] at hmem
    exact .inr (.inl ⟨by omega, low hnonzero⟩)
  · exact .inr (.inr (.inl ⟨hopc, range hnonzero⟩))
  · exact .inr (.inr (.inr (.inl ⟨hopc, hnonzero.imp range (And.imp (getLsbD_eq_false_iff w 10).1 range)⟩)))
  · exact .inr (.inr (.inr (.inr ⟨by rw [hopc]; simpa using hmem, low hnonzero⟩)))

end Sys2Proof.Proofs
end

section
/-! SUPPORT. The engine's move on the command in flight (40_command_cycle.md R154 to R157): the computation it completes, what it answers,
what it keeps, and what the other events leave of a flight. -/

namespace Sys2Proof.Machine
open Sys2Proof.Claims

/-- When the engine moves, the step is the engine's at the state without that event (R93, R154, log 2). -/
theorem step_of_engineMoves {s : State} (h : EngineMoves s) : step s = State.engineStep { s with inputs := s.inputs.tail } := by
  obtain hi | ⟨rest, hi⟩ := h
  · rw [step_no_event hi, hi, List.tail_nil, ← hi]
  · rw [step_event hi, hi, List.tail_cons, State.handle]

/-- What the word in flight comes to, legal or not: a function of the word, the snapshot and the words drawn at a width (R127, R155). -/
def Flight.result (f : Flight) (w : Width) : CmdResult :=
  match decode f.cmd with
  | .command i => commandResult i w f.snap f.drawn
  | .illegal why => .raise (illegalError why)

/-- The engine's step completes the result of its flight (R154, R155). -/
theorem engineStep_eq_finish {s : State} {f : Flight} (he : s.engine = .running f) : s.engineStep = finish (f.result s.width) s := by
  rw [engineStep_running he, Flight.result]
  cases decode f.cmd <;> rfl

/-- With a snapshot in `[0, 2^W)` the word in flight fails no check of S10 and S11. -/
theorem result_never_stops {f : Flight} {w : Width} (h : f.snap.fits w) (why : Fault) : f.result w ≠ .stop why := by
  rw [Flight.result]
  cases decode f.cmd with
  | command i => exact commandResult_never_stops i f.drawn h why
  | illegal why => nofun

/-- Under the invariant the engine's step answers a next state (R154). -/
theorem engineStep_answers {s : State} {f : Flight} (h : s.Inv) (he : s.engine = .running f) : ∃ t, s.engineStep = .next t := by
  rw [engineStep_eq_finish he]
  exact finish_answers (result_never_stops ((h.in_flight f he).snap_eq ▸ h.bank_fits))

/-- The engine's step completes the command in flight, or asks for the word it waits on (R100, R154). -/
theorem engineStep_completes_or_waits {s t : State} {f : Flight} (he : s.engine = .running f) (h : s.engineStep = .next t) :
    (t.engine = .idle ∧ t.status.done = true) ∨ (f.waitsOn f.drawn ∧ t = s.requestWord) := by
  rcases engineStep_running_cases he h with ⟨i, st, -, -, rfl⟩ | ⟨e, -, -, rfl⟩ | hwaits
  · exact .inl ⟨rfl, rfl⟩
  · exact .inl ⟨rfl, rfl⟩
  · exact .inr hwaits

/-- An error completion as the claims write it (R157, R276). -/
theorem completeError_eq_failed (s : State) (e : CmdError) :
    s.completeError e = failed s e.code e.info.reason e.info.reg e.info.index.toNat := by
  simp only [failed, Fin.ofNat_val_eq_self, BitVec.ofNat_toNat, BitVec.setWidth_eq]
  rfl

theorem destinations_eq_commandTargets (i : Instr) : destinations i = commandTargets i := by
  cases i <;> rfl

/-- A command writes no register but its destinations (R157, R165). -/
theorem exec_read_other {i : Instr} {s t : State} (h : exec i s = .next t) {r : Reg} (hr : r.val ∉ destinations i) :
    t.x.read r = s.x.read r := by
  rw [exec_eq] at h
  have hshape := commandResult_shape i s.width s.snapshot s.drawn
  rcases finish_next h with ⟨st, hst, rfl⟩ | ⟨e, -, rfl⟩ | ⟨-, rfl⟩
  · rw [hst] at hshape
    obtain ⟨htargets, -⟩ := hshape
    rw [destinations_eq_commandTargets] at hr
    exact read_writeAll_other s.x st.writes fun p hp heq => hr (heq ▸ htargets p hp)
  · rfl
  · rfl

/-- A command leaves CTRL, CMD, the width, the response, the coming events and the sticky flags (R157, R165, R166). -/
theorem exec_frame {i : Instr} {s t : State} (h : exec i s = .next t) :
    t.ie = s.ie ∧ t.cmd = s.cmd ∧ t.width = s.width ∧ t.resp = s.resp ∧ t.inputs = s.inputs ∧
    t.status.overrun = s.status.overrun ∧ t.status.busyacc = s.status.busyacc := by
  rw [exec_eq] at h
  rcases finish_next h with ⟨st, -, rfl⟩ | ⟨e, -, rfl⟩ | ⟨-, rfl⟩ <;> exact ⟨rfl, rfl, rfl, rfl, rfl, rfl, rfl⟩

/-- No host access touches the command in flight (R87, R151, R153). -/
theorem hostAccess_engine_of_busy {s : State} (hb : s.busy = true) (a : Access) : (s.hostAccess a).engine = s.engine := by
  obtain ⟨resp, h | ⟨-, h⟩ | ⟨v, -, h⟩ | ⟨v, -, h⟩ | ⟨v, -, h⟩ | ⟨ad, r, j, v, -, -, -, h⟩⟩ := hostAccess_cases s a
  case inr.inr.inr.inr.inl => rw [h, writeCmd_busy hb]
  all_goals simp [h]

/-- An aligned write to CMD is a command offered to the engine, and is acknowledged (R32, R152, R153). -/
theorem step_write_cmd {s : State} {rest : List Input} {v : Word} (hi : s.inputs = .access (.write 0x010#16 .word v) :: rest) :
    step s = .next { State.writeCmd { s with inputs := rest } v with resp := some .ack } :=
  step_write hi rfl

end Sys2Proof.Machine
end

section
/-! PROOF. The command cycle: acceptance, the engine's step and completion (40_command_cycle.md). -/

namespace Sys2Proof.Proofs
open Sys2Proof.Machine Sys2Proof.Claims

/-- Settles O31: the registers by the shape of the command's result, the rest by each completion's updates. -/
theorem commandsWriteOnlyTheirDestinations : Obligations.CommandsWriteOnlyTheirDestinations :=
  fun _ _ _ h => ⟨fun _ hr => exec_read_other h hr, exec_frame h⟩

/-- Settles O32: a success and a request leave no error code, so the step was an error completion. -/
theorem errorsArePrecise : Obligations.ErrorsArePrecise := by
  intro s t f he hnone hstep herror
  rcases engineStep_running_cases he hstep with ⟨i, st, -, -, rfl⟩ | ⟨e, -, -, rfl⟩ | ⟨-, rfl⟩
  · exact absurd rfl herror
  · exact completeError_eq_failed s e
  · exact absurd hnone herror

/-- Settles O33: the engine answers under the invariant, and only a random MRTEST waits. -/
theorem everyOtherCommandCompletesInOneEngineStep : Obligations.EveryOtherCommandCompletesInOneEngineStep := by
  intro s f h he hnot hmoves
  rw [step_of_engineMoves hmoves]
  have he' : State.engine { s with inputs := s.inputs.tail } = .running f := he
  obtain ⟨t, hstep⟩ := engineStep_answers (inv_environment h s.ie s.resp s.inputs.tail) he'
  rcases engineStep_completes_or_waits he' hstep with ⟨hidle, hdone⟩ | ⟨⟨rd, rn, rounds, hd, -⟩, -⟩
  · exact ⟨t, hstep, hidle, busy_of_idle hidle, hdone⟩
  · exact absurd ⟨rd, rn, rounds, hd⟩ hnot

/-- Settles O34: both states complete the one result of the flight they share. -/
theorem resultsDependOnTheSnapshotAlone : Obligations.ResultsDependOnTheSnapshotAlone := by
  intro s₁ s₂ t₁ hwidth hengine hx hstep
  cases he : s₁.engine with
  | idle =>
    obtain rfl := Host.Outcome.next.inj ((engineStep_idle he).symm.trans hstep)
    refine ⟨s₂, engineStep_idle (hengine ▸ he), hx, hengine, fun hb => ?_⟩
    cases (busy_of_idle he).symm.trans hb
  | running f =>
    rw [engineStep_eq_finish he] at hstep
    rw [engineStep_eq_finish (hengine ▸ he), ← hwidth]
    rcases finish_next hstep with ⟨st, hr, rfl⟩ | ⟨e, hr, rfl⟩ | ⟨hr, rfl⟩ <;> rw [hr]
    · exact ⟨_, rfl, congrArg (Bank.writeAll · st.writes) hx, rfl, fun _ _ => ⟨rfl, rfl, rfl, rfl, rfl⟩⟩
    · exact ⟨_, rfl, hx, rfl, fun _ _ => ⟨rfl, rfl, rfl, rfl, rfl⟩⟩
    · refine ⟨_, rfl, hx, hengine, fun _ hidle => ?_⟩
      cases he.symm.trans hidle

/-- Settles O50, by the event of the step: the engine completes or waits, an access leaves the flight, an offered word joins it. -/
theorem nothingCancelsACommandInFlight : Obligations.NothingCancelsACommandInFlight := by
  intro s t f he hstep hreset
  rcases step_cases hstep with ⟨s', hs', hengine⟩ | ⟨a, rest, -, rfl⟩ | ⟨w, rest, hi, rfl⟩ | ⟨rest, hi, -⟩
  · have hmove : EngineMoves s ∧ s'.engine = .running f := by
      obtain ⟨hi, rfl⟩ | ⟨rest, hi, rfl⟩ := hs'
      · exact ⟨.inl hi, he⟩
      · exact ⟨.inr ⟨rest, hi⟩, he⟩
    obtain ⟨hmoves, he'⟩ := hmove
    rcases engineStep_completes_or_waits he' hengine with hdone | ⟨-, rfl⟩
    · exact .inl ⟨hmoves, hdone⟩
    · exact .inr ⟨f.drawn, he', .inl rfl⟩
  · have hb : State.busy { s with inputs := rest } = true := busy_of_running he
    exact .inr ⟨f.drawn, (hostAccess_engine_of_busy hb a).trans he, .inl rfl⟩
  · rcases offerWord_cases { s with inputs := rest } w with heq | ⟨g, hreq, hg, heq⟩ <;> rw [heq]
    · exact .inr ⟨f.drawn, he, .inl rfl⟩
    · obtain rfl : g = f := Engine.running.inj (hg.symm.trans he)
      exact .inr ⟨g.drawn ++ [w], rfl, .inr ⟨w, rest, hi, hreq, rfl⟩⟩
  · exact absurd ⟨rest, hi⟩ hreset

/-- Settles O14: the step is the engine's, which runs what the word in flight decodes to. -/
theorem stepRunsTheDecodedCommand : Obligations.StepRunsTheDecodedCommand := by
  intro s hmoves
  rw [step_of_engineMoves hmoves]
  refine ⟨fun f i he hd => ?_, fun f why he hd => ?_, fun he => engineStep_idle he⟩
  · simp only [State.engineStep, he, State.runWord, hd]
  · exact ⟨_, engineStep_illegal he hd, by cases why <;> rfl, rfl, rfl⟩

/-- Settles O42: the write is the acceptance of its word. -/
theorem cmdWriteIsAcceptedWhileIdle : Obligations.CmdWriteIsAcceptedWhileIdle := by
  intro s rest v he hi
  have hb : State.busy { s with inputs := rest } = false := busy_of_idle he
  rw [step_write_cmd hi, writeCmd_not_busy (Bool.eq_false_iff.1 hb)]
  rfl

/-- Settles O43: a busy block drops the write. -/
theorem cmdWriteIsDroppedWhileBusy : Obligations.CmdWriteIsDroppedWhileBusy := by
  intro s f rest v he hi
  have hb : State.busy { s with inputs := rest } = true := busy_of_running he
  rw [step_write_cmd hi, writeCmd_busy hb]

end Sys2Proof.Proofs
end

section
/-! SUPPORT. What a command's engine step answers, as the claims write it: one result, or INVALID_INPUT (40_command_cycle.md R157, R165). -/

namespace Sys2Proof.Machine
open Sys2Proof.Claims

/-- A command with one result and no flag writes it and completes (R165). -/
theorem finish_oneResult (s : State) (rd : Reg) (v : Nat) : finish (oneResult rd v) s = .next (wrote s rd v) := rfl

/-- A command whose check fails completes with INVALID_INPUT (R157, R272). -/
theorem finish_invalidInput (s : State) (reason : Reason) (reg : Reg) (index : Nat) :
    finish (invalidInput reason reg index) s = .next (failed s .invalidInput reason reg index) := by
  simp only [invalidInput, finish, completeError_eq_failed, BitVec.ofNat_toNat, BitVec.setWidth_eq, failed]

/-- A command with one check before its one result answers the error or the result (R156, R157, R165). -/
theorem finish_checked_oneResult (P : Prop) [Decidable P] (s : State) (reason : Reason) (reg : Reg) (index : Nat) (rd : Reg) (v : Nat) :
    finish (if P then invalidInput reason reg index else oneResult rd v) s =
      .next (if P then failed s .invalidInput reason reg index else wrote s rd v) := by
  split
  · exact finish_invalidInput s reason reg index
  · exact finish_oneResult s rd v

/-- While a command is in flight its engine step completes its computation on the snapshot and the words drawn (R155). -/
theorem exec_running {s : State} {f : Flight} (he : s.engine = .running f) (i : Instr) :
    exec i s = finish (commandResult i s.width f.snap f.drawn) s := by
  rw [exec_eq, snapshot_running he, drawn_running he]

end Sys2Proof.Machine
end

section
/-! PROOF. The modular multiplier (41_modular_multiplier.md). -/

namespace Sys2Proof.Proofs
open Sys2Proof.Machine Sys2Proof.Claims

/-- Settles O15: the modulus is checked for 0, and otherwise the remainder is the one result; the ILLEGAL form is a case of O13. -/
theorem modmulCompletes : Obligations.ModmulCompletes := by
  refine ⟨fun s f rd ra rb rm he => ?_, nonzeroReservedFieldsCompleteIllegal.1 0x01 (by simp)⟩
  rw [exec_running he]
  exact finish_checked_oneResult (f.snap.get rm = 0) s .zeroOperand rm 0 rd (f.snap.get ra * f.snap.get rb % f.snap.get rm)

end Sys2Proof.Proofs
end

section
/-! PROOF. The modular exponentiator (42_modular_exponentiator.md). -/

namespace Sys2Proof.Proofs
open Sys2Proof.Machine Sys2Proof.Claims

/-- Settles O16: by the loop's value (`powmod_eq`) the power's remainder is the one result after the check of the modulus; the ILLEGAL form is a case of O13. -/
theorem modpowCompletes : Obligations.ModpowCompletes := by
  refine ⟨fun s f rd rn re rm he => ?_, nonzeroReservedFieldsCompleteIllegal.1 0x02 (by simp)⟩
  rw [exec_running he, ← powmod_eq]
  exact finish_checked_oneResult (f.snap.get rm = 0) s .zeroOperand rm 0 rd (powmod (f.snap.get rn) (f.snap.get re) (f.snap.get rm))

end Sys2Proof.Proofs
end

section
/-! SUPPORT. Under the invariant every event is answered: the engine by the bounds of its command's result (S10, S11), the other events always. -/

namespace Sys2Proof.Machine
variable {s : State} (h : s.Inv)
include h

/-- The engine's move is answered, with or without a command in flight (R154). -/
theorem engineStep_answers_of_inv : ∃ t, s.engineStep = .next t := by
  cases he : s.engine with
  | idle => exact ⟨s, engineStep_idle he⟩
  | running f => exact engineStep_answers h he

/-- Every event is answered (R93). -/
theorem handle_answers (e : Input) : ∃ t, s.handle e = .next t := by
  cases e with
  | access a => exact ⟨_, rfl⟩
  | engine => exact engineStep_answers_of_inv h
  | randomWord w => exact ⟨_, rfl⟩
  | reset => exact ⟨_, rfl⟩

end Sys2Proof.Machine
end

section
/-! PROOF. No step from a state with the invariant stops (93_implementation_defined.md S10, S11). -/

namespace Sys2Proof.Proofs
open Sys2Proof.Machine Sys2Proof.Claims

/-- Settles O5, by the coming event: the invariant does not speak of the events to come, and under it each of them is answered. -/
theorem noStepFromTheInvariantStops : Obligations.NoStepFromTheInvariantStops := by
  intro s h
  cases hi : s.inputs with
  | nil =>
    rw [step_no_event hi]
    exact engineStep_answers_of_inv h
  | cons e rest =>
    rw [step_event hi]
    exact handle_answers (inv_environment h s.ie s.resp rest) e

end Sys2Proof.Proofs
end

section
/-! SUPPORT. What the extended_gcd_core computes, case by case (43_extended_gcd_core.md R201 to R207). -/

namespace Sys2Proof.Machine
open Sys2Proof.Claims

/-- BGCD computes what GCD computes: both loops give the greatest common divisor (R204). -/
theorem bgcdResult_eq_gcdResult (b : Bank) (rd ra rb : Reg) : bgcdResult b rd ra rb = gcdResult b rd ra rb := by
  simp only [bgcdResult, gcdResult, gcdBalanced_eq, gcdEuclid_eq]

/-- BGCD answers what GCD answers, in every state (R204). -/
theorem exec_bgcd_eq_exec_gcd (rd ra rb : Reg) (s : State) : exec (.bgcd rd ra rb) s = exec (.gcd rd ra rb) s := by
  rw [exec_eq, exec_eq]
  exact congrArg (finish · s) (bgcdResult_eq_gcdResult s.snapshot rd ra rb)

section XgcdResult
variable {w : Width} {b : Bank} {rd ra rb : Reg}

theorem xgcdResult_of_range (hrd : ¬ rd.val + 2 < 16) : xgcdResult w b rd ra rb = invalidInput .regRange rd 0 := dif_neg hrd

theorem xgcdResult_of_first_zero (hrd : rd.val + 2 < 16) (ha : b.read ra = 0) :
    xgcdResult w b rd ra rb = invalidInput .zeroOperand ra 0 := by
  rw [xgcdResult, dif_pos hrd, if_pos ha]

theorem xgcdResult_of_second_zero (hrd : rd.val + 2 < 16) (ha : b.read ra ≠ 0) (hb : b.read rb = 0) :
    xgcdResult w b rd ra rb = invalidInput .zeroOperand rb 0 := by
  rw [xgcdResult, dif_pos hrd, if_neg ha, if_pos hb]

/-- The magnitudes of operands in range fit a register: they are at most the operands (R207, S10). -/
theorem xgcd_magnitudes_fit (hfits : b.fits w) (ha : b.read ra ≠ 0) (hb : b.read rb ≠ 0) :
    (xgcd (b.read ra) (b.read rb)).x.natAbs < w.bound ∧ (xgcd (b.read ra) (b.read rb)).y.natAbs < w.bound := by
  obtain ⟨hx, hy⟩ := xgcd_bound (Nat.pos_of_ne_zero ha) (Nat.pos_of_ne_zero hb)
  exact ⟨(hx.trans (Nat.div_le_self _ _)).trans_lt (hfits rb), (hy.trans (Nat.div_le_self _ _)).trans_lt (hfits ra)⟩

/-- On nonzero operands in range XGCD stages its gcd and coefficients (R205, R207). -/
theorem xgcdResult_of_nonzero (hrd : rd.val + 2 < 16) (hfits : b.fits w) (ha : b.read ra ≠ 0) (hb : b.read rb ≠ 0) :
    xgcdResult w b rd ra rb =
      .success (bezoutStaged rd ⟨rd.val + 1, by omega⟩ ⟨rd.val + 2, hrd⟩ (xgcd (b.read ra) (b.read rb))) := by
  rw [xgcdResult, dif_pos hrd, if_neg ha, if_neg hb]
  exact if_pos (xgcd_magnitudes_fit hfits ha hb)

end XgcdResult

/-- Staged coefficients complete as three writes and the two sign flags (R165, R206). -/
theorem finish_bezoutStaged (s : State) {rd : Reg} (hrd : rd.val + 2 < 16) (z : Bezout) :
    finish (.success (bezoutStaged rd ⟨rd.val + 1, by omega⟩ ⟨rd.val + 2, hrd⟩ z)) s = .next
      (succeeded s (((s.x.set rd.val z.g).set (rd.val + 1) z.x.natAbs).set (rd.val + 2) z.y.natAbs)
        false (decide (z.x < 0)) (decide (z.y < 0)) 0) := rfl

end Sys2Proof.Machine
end

section
/-! PROOF. The extended gcd core (43_extended_gcd_core.md). -/

namespace Sys2Proof.Proofs
open Sys2Proof.Machine Sys2Proof.Claims

/-- Settles O17: by the loop's value (`gcdEuclid_eq`) the gcd is the one result after the check of `a`; the ILLEGAL form is a case of O13. -/
theorem gcdCompletes : Obligations.GcdCompletes := by
  refine ⟨fun s f rd ra rb he => ?_, nonzeroReservedFieldsCompleteIllegal.2.1 0x03 (by simp)⟩
  rw [exec_running he, ← gcdEuclid_eq]
  exact finish_checked_oneResult (f.snap.get ra = 0) s .zeroOperand ra 0 rd (gcdEuclid (f.snap.get ra) (f.snap.get rb))

/-- Settles O18: BGCD answers as GCD does, hence as O17 says; the ILLEGAL form is a case of O13. -/
theorem bgcdCompletesAsGcdDoes : Obligations.BgcdCompletesAsGcdDoes := by
  refine ⟨fun s f rd ra rb he => ?_, nonzeroReservedFieldsCompleteIllegal.2.1 0x04 (by simp)⟩
  have hsame := exec_bgcd_eq_exec_gcd rd ra rb s
  exact ⟨hsame.trans (gcdCompletes.1 s f rd ra rb he), hsame⟩

/-- Settles O19: the checks in their order, then the pair `xgcd` gives, whose bound lets it pass the check of S10; the ILLEGAL form
is a case of O13. -/
theorem xgcdCompletes : Obligations.XgcdCompletes := by
  refine ⟨fun s f rd ra rb he hfits => ?_, nonzeroReservedFieldsCompleteIllegal.2.1 0x05 (by simp)⟩
  have hexec : exec (.xgcd rd ra rb) s = finish (xgcdResult s.width f.snap rd ra rb) s := exec_running he _
  rw [hexec]
  refine ⟨fun hrd => ?_, fun hrd ha => ?_, fun hrd ha hb => ?_, fun hrd ha hb => ?_⟩
  · rw [xgcdResult_of_range (by omega), finish_invalidInput]
  · rw [xgcdResult_of_first_zero (by omega) ha, finish_invalidInput]
  · rw [xgcdResult_of_second_zero (by omega) ha hb, finish_invalidInput]
  · obtain ⟨hx, hy⟩ := xgcd_bound (Nat.pos_of_ne_zero ha) (Nat.pos_of_ne_zero hb)
    refine ⟨_, _, xgcd_x _ _, xgcd_y _ _, xgcd_bezout _ _, hx, hy, ?_, ?_⟩
    · rw [xgcdResult_of_nonzero (by omega) hfits ha hb, finish_bezoutStaged, xgcd_g]
      rfl
    · rw [gcdCompletes.1 s f rd ra rb he, if_neg ha]

end Sys2Proof.Proofs
end

section
/-! SUPPORT. What the modular_inverse_engine computes, case by case (44_modular_inverse_engine.md R221, R222). -/

namespace Sys2Proof.Machine
open Sys2Proof.Claims

/-- A command that finds no inverse completes with NO_INVERSE / NOT_COPRIME (R157, R272). -/
theorem finish_noInverse (s : State) (reg : Reg) (index : Nat) :
    finish (noInverse reg index) s = .next (failed s .noInverse .notCoprime reg index) := by
  simp only [noInverse, finish, completeError_eq_failed, BitVec.ofNat_toNat, BitVec.setWidth_eq, failed]

/-- A modulus has at most one inverse below it of each `n`: `n` cancels, being coprime to the modulus (R221). -/
theorem inverse_unique {n m u v : Nat} (hcoprime : Nat.gcd n m = 1) (hu : u < m) (hv : v < m)
    (hnu : n * u % m = 1 % m) (hnv : n * v % m = 1 % m) : v = u :=
  have hmod : v ≡ u [MOD m] :=
    Nat.ModEq.cancel_left_of_coprime (by rwa [Nat.gcd_comm]) (hnv.trans hnu.symm : n * v ≡ n * u [MOD m])
  hmod.eq_of_lt_of_lt hv hu

section ModinvResult
variable {b : Bank} {rd rn rm : Reg}

theorem modinvResult_of_first_zero (hn : b.read rn = 0) : modinvResult b rd rn rm = invalidInput .zeroOperand rn 0 := if_pos hn

theorem modinvResult_of_second_zero (hn : b.read rn ≠ 0) (hm : b.read rm = 0) :
    modinvResult b rd rn rm = invalidInput .zeroOperand rm 0 := by
  rw [modinvResult, if_neg hn, if_pos hm]

/-- On nonzero operands with a common factor MODINV finds no inverse and names RS1 (R221, R222). -/
theorem modinvResult_of_not_coprime (hn : b.read rn ≠ 0) (hm : b.read rm ≠ 0) (hg : Nat.gcd (b.read rn) (b.read rm) ≠ 1) :
    modinvResult b rd rn rm = noInverse rn 0 := by
  obtain ⟨-, hnone⟩ | ⟨hg', -⟩ := modinv_eq (Nat.pos_of_ne_zero hn) (Nat.pos_of_ne_zero hm)
  · rw [modinvResult, if_neg hn, if_neg hm, hnone]
  · exact absurd hg' hg

/-- On nonzero coprime operands MODINV answers an inverse below the modulus (R221). -/
theorem modinvResult_of_coprime (hn : b.read rn ≠ 0) (hm : b.read rm ≠ 0) (hg : Nat.gcd (b.read rn) (b.read rm) = 1) :
    ∃ u, modinvResult b rd rn rm = oneResult rd u ∧ u < b.read rm ∧ b.read rn * u % b.read rm = 1 % b.read rm := by
  obtain ⟨hg', -⟩ | ⟨-, u, hfound, hinv⟩ := modinv_eq (Nat.pos_of_ne_zero hn) (Nat.pos_of_ne_zero hm)
  · exact absurd hg hg'
  · exact ⟨u, by rw [modinvResult, if_neg hn, if_neg hm, hfound], hinv⟩

end ModinvResult

end Sys2Proof.Machine
end

section
/-! PROOF. The modular inverse engine (44_modular_inverse_engine.md). -/

namespace Sys2Proof.Proofs
open Sys2Proof.Machine Sys2Proof.Claims

/-- Settles O20: the checks in their order, then the inverse `modinv` finds when the operands are coprime, the only one below the
modulus; the ILLEGAL form is a case of O13. -/
theorem modinvCompletes : Obligations.ModinvCompletes := by
  refine ⟨fun s f rd rn rm he => ?_, nonzeroReservedFieldsCompleteIllegal.2.1 0x06 (by simp)⟩
  have hexec : exec (.modinv rd rn rm) s = finish (modinvResult f.snap rd rn rm) s := exec_running he _
  rw [hexec]
  refine ⟨fun hn => ?_, fun hn hm => ?_, fun hn hm hg => ?_, fun hn hm hg => ?_⟩
  · rw [modinvResult_of_first_zero hn, finish_invalidInput]
  · rw [modinvResult_of_second_zero hn hm, finish_invalidInput]
  · rw [modinvResult_of_not_coprime hn hm hg, finish_noInverse]
  · obtain ⟨u, hres, hlt, hinv⟩ := modinvResult_of_coprime (rd := rd) hn hm hg
    exact ⟨u, ⟨hlt, hinv⟩, fun v ⟨hv, hnv⟩ => inverse_unique hg hlt hv hinv hnv, by rw [hres, finish_oneResult]⟩

end Sys2Proof.Proofs
end

section
/-! SUPPORT. The moduli of CRT and their cofactors `M / m_i`, as numbers: what makes a cofactor invertible, and that residues
modulo pairwise coprime moduli determine a number below their product (45_crt_reconstructor.md R231, R233, R234). -/

namespace Sys2Proof.Machine
variable {m : Nat → Nat} {k i j : Nat}

/-- The cofactor `M / m_i` is the product of the other moduli. -/
theorem cofactor_eq_prod_erase (hi : i < k) (hpos : 0 < m i) :
    (∏ j ∈ Finset.range k, m j) / m i = ∏ j ∈ (Finset.range k).erase i, m j := by
  rw [← Finset.mul_prod_erase _ m (Finset.mem_range.2 hi), Nat.mul_div_cancel_left _ hpos]

theorem cofactor_pos (hpos : ∀ j < k, 0 < m j) (hi : i < k) : 0 < (∏ j ∈ Finset.range k, m j) / m i := by
  rw [cofactor_eq_prod_erase hi (hpos i hi)]
  exact Finset.prod_pos fun j hj => hpos j (Finset.mem_range.1 (Finset.mem_of_mem_erase hj))

/-- Every other modulus divides the cofactor. -/
theorem dvd_cofactor (hi : i < k) (hpos : 0 < m i) (hj : j < k) (hne : j ≠ i) :
    m j ∣ (∏ j ∈ Finset.range k, m j) / m i := by
  rw [cofactor_eq_prod_erase hi hpos]
  exact Finset.dvd_prod_of_mem m (Finset.mem_erase.2 ⟨hne, Finset.mem_range.2 hj⟩)

/-- The cofactor is coprime to its modulus exactly when the modulus shares no factor with another (R233). -/
theorem coprime_cofactor_iff (hi : i < k) (hpos : 0 < m i) :
    Nat.gcd ((∏ j ∈ Finset.range k, m j) / m i) (m i) = 1 ↔ ∀ j < k, j ≠ i → Nat.Coprime (m i) (m j) := by
  rw [cofactor_eq_prod_erase hi hpos, ← Nat.coprime_iff_gcd_eq_one, Nat.coprime_prod_left_iff]
  simp only [Finset.mem_erase, Finset.mem_range, Nat.coprime_comm (m := m i)]
  exact ⟨fun h j hj hne => h j ⟨hne, hj⟩, fun h j ⟨hne, hj⟩ => h j hj hne⟩

/-- Numbers below the product of pairwise coprime moduli with the same residues are equal (R234). -/
theorem eq_of_same_residues {u v : Nat} (hco : ∀ i < k, ∀ j < k, i ≠ j → Nat.Coprime (m i) (m j))
    (hu : u < ∏ i ∈ Finset.range k, m i) (hv : v < ∏ i ∈ Finset.range k, m i) (hmod : ∀ i < k, u % m i = v % m i) :
    u = v := by
  have hpairwise : (List.range k).Pairwise (Function.onFun Nat.Coprime m) :=
    List.nodup_range.imp_of_mem fun hi hj hne => hco _ (List.mem_range.1 hi) _ (List.mem_range.1 hj) hne
  have hcongr : u ≡ v [MOD ((List.range k).map m).prod] :=
    (Nat.modEq_list_map_prod_iff hpairwise).2 fun i hi => hmod i (List.mem_range.1 hi)
  exact hcongr.eq_of_lt_of_lt hu hv

end Sys2Proof.Machine
end

section
/-! SUPPORT. What the loops of the crt_reconstructor do on a list of registers: the product, the capacity check and the sum
(45_crt_reconstructor.md R231 to R233). -/

namespace Sys2Proof.Machine

/-- The loop of R231 multiplies the moduli. -/
theorem modulusProduct_eq (b : Bank) (acc : Nat) (rs : List Reg) : modulusProduct b acc rs = acc * (rs.map b.read).prod := by
  induction rs generalizing acc with
  | nil => simp [modulusProduct]
  | cons r rs ih => simp [modulusProduct, ih, Nat.mul_assoc]

/-- When a product of nonzero moduli is below the bound, so is what the first of them brings it to (R232). -/
theorem mul_first_lt_of_product_lt {b : Bank} {bound acc : Nat} {r : Reg} {rs : List Reg} (hpos : ∀ q ∈ rs, 0 < b.read q)
    (hlt : acc * ((r :: rs).map b.read).prod < bound) : acc * b.read r < bound := by
  have hrest : 0 < (rs.map b.read).prod := List.prod_pos (by simpa using hpos)
  rw [List.map_cons, List.prod_cons, ← Nat.mul_assoc] at hlt
  exact (Nat.le_mul_of_pos_right _ hrest).trans_lt hlt

/-- The capacity check passes over nonzero moduli whose product with what came before is below the bound (R232). -/
theorem capacityExceeded_append {b : Bank} {bound acc n : Nat} {pre : List Reg} (post : List Reg)
    (hpos : ∀ q ∈ pre, 0 < b.read q) (hlt : acc * (pre.map b.read).prod < bound) :
    capacityExceeded bound b acc n (pre ++ post) =
      capacityExceeded bound b (acc * (pre.map b.read).prod) (n + pre.length) post := by
  induction pre generalizing acc n with
  | nil => simp
  | cons r pre ih =>
    have hpos' : ∀ q ∈ pre, 0 < b.read q := fun q hq => hpos q (List.mem_cons_of_mem r hq)
    have hfirst : ¬ bound ≤ acc * b.read r := Nat.not_le.2 (mul_first_lt_of_product_lt hpos' hlt)
    rw [List.cons_append, capacityExceeded, if_neg hfirst, ih hpos' (by simpa [Nat.mul_assoc] using hlt)]
    simp only [List.map_cons, List.prod_cons, List.length_cons, Nat.mul_assoc, Nat.add_assoc, Nat.add_comm 1]

/-- The term `x_i · M_i · (M_i⁻¹ mod m_i)` that an element of CRT, given as (residue register, modulus register), adds to the
sum of R231. -/
def crtTerm (b : Bank) (bigM : Nat) (p : Reg × Reg) : Nat :=
  match modinv (bigM / b.read p.2) (b.read p.2) with
  | .found inv => b.read p.1 * (bigM / b.read p.2) * inv
  | _ => 0

section
variable {b : Bank} {bigM : Nat}

/-- The sum passes over elements whose cofactor has an inverse, and adds their terms (R231). -/
theorem crtSum_append (rd : Reg) (n sum : Nat) {pre : List (Reg × Reg)} (post : List (Reg × Reg))
    (hpos : ∀ p ∈ pre, 0 < b.read p.2 ∧ 0 < bigM / b.read p.2)
    (hco : ∀ p ∈ pre, Nat.gcd (bigM / b.read p.2) (b.read p.2) = 1) :
    crtSum b rd bigM n sum (pre ++ post) =
      crtSum b rd bigM (n + pre.length) (sum + (pre.map (crtTerm b bigM)).sum) post := by
  induction pre generalizing n sum with
  | nil => rfl
  | cons p pre ih =>
    obtain ⟨⟨hm, hcof⟩, hpos'⟩ := List.forall_mem_cons.1 hpos
    obtain ⟨hcop, hco'⟩ := List.forall_mem_cons.1 hco
    obtain ⟨hncop, -⟩ | ⟨-, inv, hfound, -⟩ := modinv_eq hcof hm
    · exact absurd hcop hncop
    · simp only [List.cons_append, crtSum, hfound, ih _ _ hpos' hco', List.map_cons, List.sum_cons, crtTerm, List.length_cons,
        Nat.add_assoc, Nat.add_comm 1]

/-- The sum stops at an element whose cofactor has no inverse (R233). -/
theorem crtSum_cons_of_not_coprime (rd : Reg) (n sum : Nat) {p : Reg × Reg} (rest : List (Reg × Reg)) (hm : 0 < b.read p.2)
    (hcof : 0 < bigM / b.read p.2) (hncop : Nat.gcd (bigM / b.read p.2) (b.read p.2) ≠ 1) :
    crtSum b rd bigM n sum (p :: rest) = noInverse p.2 n := by
  obtain ⟨-, hnone⟩ | ⟨hcop, -⟩ := modinv_eq hcof hm
  · simp only [crtSum, hnone]
  · exact absurd hcop hncop

/-- An element's own term has its residue (R231). -/
theorem crtTerm_modEq {p : Reg × Reg} (hm : 0 < b.read p.2) (hcof : 0 < bigM / b.read p.2)
    (hcop : Nat.gcd (bigM / b.read p.2) (b.read p.2) = 1) : crtTerm b bigM p ≡ b.read p.1 [MOD b.read p.2] := by
  obtain ⟨hncop, -⟩ | ⟨-, inv, hfound, -, hinv⟩ := modinv_eq hcof hm
  · exact absurd hcop hncop
  · have hone : bigM / b.read p.2 * inv ≡ 1 [MOD b.read p.2] := hinv
    simpa only [crtTerm, hfound, Nat.mul_assoc, Nat.mul_one] using hone.mul_left (b.read p.1)

/-- What divides an element's cofactor divides its term (R231). -/
theorem dvd_crtTerm {p : Reg × Reg} {d : Nat} (hd : d ∣ bigM / b.read p.2) : d ∣ crtTerm b bigM p := by
  unfold crtTerm
  split
  · exact (hd.mul_left _).mul_right _
  · exact Nat.dvd_zero d

end

end Sys2Proof.Machine
end

section
/-! SUPPORT. The register arrays of a command as the claims write their elements (30_encoding.md R123). -/

namespace Sys2Proof.Machine
open Sys2Proof.Claims

/-- The register of element `i` of the array based at `base` (R123). -/
def elemReg (base : Reg) (i : Nat) : Reg := Fin.ofNat 16 (base.val + i)

variable {base : Reg} {k i : Nat}

theorem elemReg_val (h : base.val + i ≤ 15) : (elemReg base i).val = base.val + i :=
  Nat.mod_eq_of_lt (by omega)

theorem read_elemReg (b : Bank) (h : base.val + i ≤ 15) : b.read (elemReg base i) = elem b base i := by
  have hlt : base.val + i < 16 := by omega
  simp [Bank.read, elem, Vector.get_eq_getElem, elemReg_val h, hlt]

theorem regArray_of_fits (h : base.val + k ≤ 16) : regArray base k = some ((List.range k).map (elemReg base)) := by
  rw [regArray_eq, if_pos (.inr h)]
  rfl

theorem regArray_of_overrun (hk : 1 ≤ k) (h : 16 < base.val + k) : regArray base k = none := by
  rw [regArray_eq, if_neg (by omega)]

/-- The indices of an array, cut at element `i`. -/
theorem range_eq_append_cons (hi : i < k) : ∃ post, List.range k = List.range i ++ i :: post := by
  obtain ⟨n, rfl⟩ := Nat.exists_eq_add_of_lt hi
  exact ⟨_, by rw [Nat.add_assoc, List.range_add, List.range_succ_eq_map, List.map_cons, Nat.add_zero]⟩

/-- The registers of an array inside the bank hold its elements. -/
theorem map_read_elemReg (b : Bank) (h : base.val + k ≤ 16) :
    ((List.range k).map (elemReg base)).map b.read = (List.range k).map (elem b base) := by
  rw [List.map_map]
  exact List.map_congr_left fun i hi => read_elemReg b (by have := List.mem_range.1 hi; omega)

/-- The first bad element of an array inside the bank (R275). -/
theorem firstBad_elemReg {bad : Nat → Bool} {b : Bank} (hi : i < k) (hfits : base.val + k ≤ 16)
    (hbad : bad (elem b base i) = true) (hgood : ∀ j < i, bad (elem b base j) = false) :
    firstBad bad b 0 ((List.range k).map (elemReg base)) = some (i, elemReg base i) := by
  obtain ⟨post, hrange⟩ := range_eq_append_cons hi
  have hpre : ∀ q ∈ (List.range i).map (elemReg base), bad (b.read q) = false := by
    simp only [List.mem_map, List.mem_range, forall_exists_index, and_imp]
    rintro _ j hj rfl
    rw [read_elemReg b (by omega)]
    exact hgood j hj
  have hat : bad (b.read (elemReg base i)) = true := by rwa [read_elemReg b (by omega)]
  simpa [hrange] using firstBad_at (i := 0) (post := post.map (elemReg base)) hpre hat

end Sys2Proof.Machine
end

section
/-! SUPPORT. What the crt_reconstructor computes, case by case (45_crt_reconstructor.md R231 to R234). -/

namespace Sys2Proof.Machine
open Sys2Proof.Claims
variable {w : Width} {b : Bank} {rd rx rm : Reg} {k i : Nat}

/-- CRT completes its computation on the snapshot (R155). -/
theorem exec_crt {s : State} {f : Flight} (he : s.engine = .running f) (rd rx rm : Reg) (k : Nat) :
    exec (.crt rd rx rm k) s = finish (crtResult s.width f.snap rd rx rm k) s := exec_running he _

theorem crtResult_of_count (hk : k = 0 ∨ 8 < k) : crtResult w b rd rx rm k = invalidInput .count 0 0 := if_pos hk

section Count
variable (hk : 1 ≤ k ∧ k ≤ 8)
include hk

theorem crt_count_admitted : ¬ (k = 0 ∨ Config.kMax < k) := by
  simp only [Config.kMax]
  omega

theorem crtResult_of_residue_overrun (hx : 16 < rx.val + k) : crtResult w b rd rx rm k = invalidInput .regRange rx 0 := by
  rw [crtResult, if_neg (crt_count_admitted hk), regArray_of_overrun hk.1 hx]

theorem crtResult_of_modulus_overrun (hx : rx.val + k ≤ 16) (hm : 16 < rm.val + k) :
    crtResult w b rd rx rm k = invalidInput .regRange rm 0 := by
  rw [crtResult, if_neg (crt_count_admitted hk), regArray_of_fits hx, regArray_of_overrun hk.1 hm]

/-- With an admitted count and both arrays inside the bank the moduli are checked next (R231). -/
theorem crtResult_of_fits (hx : rx.val + k ≤ 16) (hm : rm.val + k ≤ 16) :
    crtResult w b rd rx rm k = crtCompute w b rd ((List.range k).map (elemReg rx)) ((List.range k).map (elemReg rm)) := by
  rw [crtResult, if_neg (crt_count_admitted hk), regArray_of_fits hx, regArray_of_fits hm]

end Count

/-- Element `i` of CRT's two arrays: its residue register and its modulus register. -/
def crtPair (rx rm : Reg) (i : Nat) : Reg × Reg := (elemReg rx i, elemReg rm i)

/-- The number CRT writes: the sum of its elements' terms, reduced modulo `M` (R231). -/
def crtValue (b : Bank) (rx rm : Reg) (k bigM : Nat) : Nat := (∑ i ∈ Finset.range k, crtTerm b bigM (crtPair rx rm i)) % bigM

section Moduli
variable (hm : rm.val + k ≤ 16)
include hm

theorem prod_read_moduli {n : Nat} (hn : n ≤ k) :
    (((List.range n).map (elemReg rm)).map b.read).prod = ∏ j ∈ Finset.range n, elem b rm j := by
  rw [map_read_elemReg b (by omega)]
  rfl

theorem read_crtPair (hi : i < k) : b.read (crtPair rx rm i).2 = elem b rm i := read_elemReg b (by omega)

theorem crtCompute_of_zero (xs : List Reg) (hi : i < k) (hzero : elem b rm i = 0) (hbefore : ∀ j < i, elem b rm j ≠ 0) :
    crtCompute w b rd xs ((List.range k).map (elemReg rm)) = invalidInput .zeroOperand (elemReg rm i) i := by
  have hfirst := firstBad_elemReg (bad := (· == 0)) (b := b) hi hm (by simpa using hzero) (by simpa using hbefore)
  rw [crtCompute, hfirst]

variable (hpos : ∀ j < k, 0 < elem b rm j)
include hpos

theorem read_moduli_pos {n : Nat} (hn : n ≤ k) : ∀ q ∈ (List.range n).map (elemReg rm), 0 < b.read q := by
  simp only [List.forall_mem_map, List.mem_range]
  intro j hj
  rw [read_elemReg b (by omega)]
  exact hpos j (by omega)

theorem firstBad_moduli : firstBad (· == 0) b 0 ((List.range k).map (elemReg rm)) = none :=
  firstBad_none.2 fun q hq => by simpa using (read_moduli_pos hm hpos le_rfl q hq).ne'

/-- The capacity check passes over the first moduli when their product is below the bound (R232). -/
theorem capacityExceeded_first {bound n : Nat} (hn : n ≤ k) (rest : List Reg)
    (hbelow : ∏ j ∈ Finset.range n, elem b rm j < bound) :
    capacityExceeded bound b 1 0 ((List.range n).map (elemReg rm) ++ rest) =
      capacityExceeded bound b (∏ j ∈ Finset.range n, elem b rm j) n rest := by
  have hprod := prod_read_moduli (b := b) hm hn
  rw [capacityExceeded_append rest (read_moduli_pos hm hpos hn) (by rwa [hprod, Nat.one_mul]), hprod]
  simp only [Nat.one_mul, Nat.zero_add, List.length_map, List.length_range]

/-- The capacity check fails at the first modulus whose running product reaches `2^W` (R232). -/
theorem crtCompute_of_capacity (xs : List Reg) (hi : i < k) (hreach : w.bound ≤ ∏ j ∈ Finset.range (i + 1), elem b rm j)
    (hbelow : ∏ j ∈ Finset.range i, elem b rm j < w.bound) :
    crtCompute w b rd xs ((List.range k).map (elemReg rm)) = invalidInput .capacity (elemReg rm i) i := by
  obtain ⟨post, hrange⟩ := range_eq_append_cons hi
  rw [Finset.prod_range_succ, ← read_elemReg b (by omega)] at hreach
  have hexceeded : capacityExceeded w.bound b 1 0 ((List.range k).map (elemReg rm)) = some (i, elemReg rm i) := by
    rw [hrange, List.map_append, List.map_cons, capacityExceeded_first hm hpos hi.le _ hbelow, capacityExceeded, if_pos hreach]
  rw [crtCompute, firstBad_moduli hm hpos, hexceeded]

section Sum
variable {bigM : Nat} (hbigM : bigM = ∏ j ∈ Finset.range k, elem b rm j)
include hbigM

/-- With nonzero moduli and a product below `2^W` the sum is computed (R231). -/
theorem crtCompute_of_admitted (hbelow : bigM < w.bound) :
    crtCompute w b rd ((List.range k).map (elemReg rx)) ((List.range k).map (elemReg rm)) =
      crtSum b rd bigM 0 0 ((List.range k).map (crtPair rx rm)) := by
  have hcapacity := capacityExceeded_first hm hpos le_rfl [] (hbigM ▸ hbelow)
  rw [List.append_nil, capacityExceeded] at hcapacity
  rw [crtCompute, firstBad_moduli hm hpos, hcapacity, modulusProduct_eq, prod_read_moduli hm le_rfl, Nat.one_mul, ← hbigM,
    List.zip_map']
  rfl

/-- The inversion of an element works on positive numbers, and succeeds when the modulus shares no factor with another (R233). -/
theorem crtPair_cofactor (hi : i < k) :
    (0 < b.read (crtPair rx rm i).2 ∧ 0 < bigM / b.read (crtPair rx rm i).2) ∧
      (Nat.gcd (bigM / b.read (crtPair rx rm i).2) (b.read (crtPair rx rm i).2) = 1 ↔
        ∀ j < k, j ≠ i → Nat.Coprime (elem b rm i) (elem b rm j)) := by
  rw [read_crtPair hm hi, hbigM]
  exact ⟨⟨hpos i hi, cofactor_pos hpos hi⟩, coprime_cofactor_iff hi (hpos i hi)⟩

/-- The sum passes over the first elements when their moduli share no factor with another (R231, R233). -/
theorem crtSum_first {n : Nat} (hn : n ≤ k) (rest : List (Reg × Reg))
    (hco : ∀ i < n, ∀ j < k, j ≠ i → Nat.Coprime (elem b rm i) (elem b rm j)) :
    crtSum b rd bigM 0 0 ((List.range n).map (crtPair rx rm) ++ rest) =
      crtSum b rd bigM n (∑ i ∈ Finset.range n, crtTerm b bigM (crtPair rx rm i)) rest := by
  have hcofactor {i : Nat} (hi : i < n) := crtPair_cofactor (rx := rx) hm hpos hbigM (hi.trans_le hn)
  rw [crtSum_append rd 0 0 rest, List.length_map, List.length_range, Nat.zero_add, Nat.zero_add, List.map_map]
  · rfl
  · simp only [List.forall_mem_map, List.mem_range]
    exact fun i hi => (hcofactor hi).1
  · simp only [List.forall_mem_map, List.mem_range]
    exact fun i hi => (hcofactor hi).2.2 (hco i hi)

/-- The first modulus that shares a factor with another is reported (R233). -/
theorem crtSum_of_first_not_coprime (hi : i < k) (hshares : ∃ j < k, j ≠ i ∧ ¬ Nat.Coprime (elem b rm i) (elem b rm j))
    (hbefore : ∀ i' < i, ∀ j < k, j ≠ i' → Nat.Coprime (elem b rm i') (elem b rm j)) :
    crtSum b rd bigM 0 0 ((List.range k).map (crtPair rx rm)) = noInverse (elemReg rm i) i := by
  obtain ⟨post, hrange⟩ := range_eq_append_cons hi
  obtain ⟨j, hj, hne, hncop⟩ := hshares
  obtain ⟨⟨hread, hcof⟩, hiff⟩ := crtPair_cofactor (rx := rx) hm hpos hbigM hi
  rw [hrange, List.map_append, List.map_cons, crtSum_first hm hpos hbigM hi.le _ hbefore]
  exact crtSum_cons_of_not_coprime rd i _ _ hread hcof fun h => hncop (hiff.1 h j hj hne)

section Coprime
variable (hco : ∀ i < k, ∀ j < k, j ≠ i → Nat.Coprime (elem b rm i) (elem b rm j))
include hco

/-- With pairwise coprime moduli every term is summed (R231). -/
theorem crtSum_of_coprime :
    crtSum b rd bigM 0 0 ((List.range k).map (crtPair rx rm)) = oneResult rd (crtValue b rx rm k bigM) := by
  rw [← List.append_nil ((List.range k).map (crtPair rx rm)), crtSum_first hm hpos hbigM le_rfl [] hco]
  rfl

/-- The value has every residue: modulo `m_i` only the term of element `i` remains, and it is `x_i` (R231, R234). -/
theorem crtValue_mod (hx : rx.val + k ≤ 16) (hi : i < k) :
    crtValue b rx rm k bigM % elem b rm i = elem b rx i % elem b rm i := by
  have hdvd : elem b rm i ∣ bigM := hbigM ▸ Finset.dvd_prod_of_mem _ (Finset.mem_range.2 hi)
  have hown : crtTerm b bigM (crtPair rx rm i) ≡ elem b rx i [MOD elem b rm i] := by
    obtain ⟨⟨hread, hcof⟩, hiff⟩ := crtPair_cofactor (rx := rx) hm hpos hbigM hi
    rw [← read_crtPair (rx := rx) hm hi, ← read_elemReg b (by omega : rx.val + i ≤ 15)]
    exact crtTerm_modEq hread hcof (hiff.2 (hco i hi))
  have hothers : elem b rm i ∣ ∑ j ∈ (Finset.range k).erase i, crtTerm b bigM (crtPair rx rm j) := by
    refine Finset.dvd_sum fun j hj => dvd_crtTerm ?_
    obtain ⟨hne, hjk⟩ := Finset.mem_erase.1 hj
    rw [Finset.mem_range] at hjk
    rw [read_crtPair hm hjk, hbigM]
    exact dvd_cofactor hjk (hpos j hjk) hi hne.symm
  rw [crtValue, Nat.mod_mod_of_dvd _ hdvd, ← Finset.add_sum_erase _ _ (Finset.mem_range.2 hi)]
  exact hown.add (Nat.modEq_zero_iff_dvd.2 hothers)

end Coprime

end Sum

end Moduli

end Sys2Proof.Machine
end

section
/-! PROOF. The CRT reconstructor (45_crt_reconstructor.md). -/

namespace Sys2Proof.Proofs
open Sys2Proof.Machine Sys2Proof.Claims

/-- Settles O21: every check passes, and the value has each residue, which determines it below `M`. -/
theorem crtReconstructs : Obligations.CrtReconstructs := by
  intro s f rd rx rm k he hk hk8 hx hm hnz hbelow hco
  have hx16 : rx.val + k ≤ 16 := by omega
  have hm16 : rm.val + k ≤ 16 := by omega
  have hpos : ∀ i < k, 0 < elem f.snap rm i := fun i hi => Nat.pos_of_ne_zero (hnz i hi)
  have hco' : ∀ i < k, ∀ j < k, j ≠ i → Nat.Coprime (elem f.snap rm i) (elem f.snap rm j) :=
    fun i hi j hj hne => hco i hi j hj hne.symm
  have hlt : crtValue f.snap rx rm k (∏ i ∈ Finset.range k, elem f.snap rm i) < ∏ i ∈ Finset.range k, elem f.snap rm i :=
    Nat.mod_lt _ (Finset.prod_pos fun i hi => hpos i (Finset.mem_range.1 hi))
  have hmod {i : Nat} (hi : i < k) := crtValue_mod hm16 hpos rfl hco' hx16 hi
  refine ⟨_, hlt, fun i hi => hmod hi, fun u hu hres => ?_, ?_⟩
  · exact eq_of_same_residues hco hu hlt fun i hi => (hres i hi).trans (hmod hi).symm
  · rw [exec_crt he, crtResult_of_fits ⟨hk, hk8⟩ hx16 hm16, crtCompute_of_admitted hm16 hpos rfl hbelow,
      crtSum_of_coprime hm16 hpos rfl hco', finish_oneResult]

/-- Settles O22: the sum passes over the elements before `i`, and the cofactor of element `i` has no inverse. -/
theorem crtReportsModuliThatAreNotCoprime : Obligations.CrtReportsModuliThatAreNotCoprime := by
  intro s f rd rx rm k i he hk hk8 hx hm hnz hbelow hi hshares hbefore
  have hm16 : rm.val + k ≤ 16 := by omega
  have hpos : ∀ j < k, 0 < elem f.snap rm j := fun j hj => Nat.pos_of_ne_zero (hnz j hj)
  rw [exec_crt he, crtResult_of_fits ⟨hk, hk8⟩ (by omega) hm16, crtCompute_of_admitted hm16 hpos rfl hbelow,
    crtSum_of_first_not_coprime hm16 hpos rfl hi hshares hbefore, finish_noInverse, elemReg_val (by omega)]

/-- Settles O23: the checks in their order, each the first that fails; the ILLEGAL form is a case of O13. -/
theorem crtRejectsInOrder : Obligations.CrtRejectsInOrder := by
  refine ⟨fun s f rd rx rm k he => ?_, nonzeroReservedFieldsCompleteIllegal.2.2.1⟩
  rw [exec_crt he]
  refine ⟨fun hcount => ?_, fun hk hk8 hx => ?_, fun hk hk8 hx hm => ?_, fun hk hk8 hx hm => ?_⟩
  · rw [crtResult_of_count hcount, finish_invalidInput]
    rfl
  · rw [crtResult_of_residue_overrun ⟨hk, hk8⟩ (by omega), finish_invalidInput]
  · rw [crtResult_of_modulus_overrun ⟨hk, hk8⟩ (by omega) (by omega), finish_invalidInput]
  · have hm16 : rm.val + k ≤ 16 := by omega
    rw [crtResult_of_fits ⟨hk, hk8⟩ (by omega) hm16]
    refine ⟨fun i hi hzero hbefore => ?_, fun hnz i hi hreach hbelow => ?_⟩
    · rw [crtCompute_of_zero hm16 _ hi hzero hbefore, finish_invalidInput, elemReg_val (by omega)]
    · have hpos : ∀ j < k, 0 < elem f.snap rm j := fun j hj => Nat.pos_of_ne_zero (hnz j hj)
      rw [crtCompute_of_capacity hm16 hpos _ hi hreach hbelow, finish_invalidInput, elemReg_val (by omega)]

end Sys2Proof.Proofs
end

section
/-! SUPPORT. The round of a witness as the claims write it (46_miller_rabin_primality_tester.md R240, R243): the split of `n - 1` is
unique, so the model's round decides `Passes`; and every witness of a prime passes (R249). -/

namespace Sys2Proof.Machine
open Sys2Proof.Claims

/-- The exponent of 2 in a power of two times an odd factor. -/
theorem multiplicity_two_pow_mul_odd {k d : Nat} (hd : d % 2 = 1) : multiplicity 2 (2 ^ k * d) = k := by
  refine multiplicity_eq_of_dvd_of_not_dvd (Nat.dvd_mul_right _ _) fun hdvd => ?_
  rw [pow_succ] at hdvd
  have heven : 2 ∣ d := Nat.dvd_of_mul_dvd_mul_left (Nat.two_pow_pos k) hdvd
  omega

/-- LSB gives the exponent of any split into a power of two and an odd factor (R263). -/
theorem lsb_two_pow_mul_odd {k d : Nat} (hd : d % 2 = 1) : lsb (2 ^ k * d) = k := by
  have hne : 2 ^ k * d ≠ 0 := Nat.mul_ne_zero (Nat.two_pow_pos k).ne' (by omega)
  obtain ⟨e, hsplit, he⟩ := lsb_spec hne
  calc lsb (2 ^ k * d) = multiplicity 2 (2 ^ lsb (2 ^ k * d) * e) := (multiplicity_two_pow_mul_odd he).symm
    _ = multiplicity 2 (2 ^ k * d) := by rw [← hsplit]
    _ = k := multiplicity_two_pow_mul_odd hd

/-- The model's round decides whether a witness passes (R240, R243). -/
theorem witnessPasses_iff_passes {n a : Nat} (hn : 2 ≤ n) : witnessPasses n a = true ↔ Passes n a := by
  rw [witnessPasses_iff]
  have hdiv {s d : Nat} : 2 ^ s * d / 2 ^ s = d := Nat.mul_div_cancel_left d (Nat.two_pow_pos s)
  constructor
  · intro h
    obtain ⟨d, hsplit, hd⟩ := lsb_spec (n := n - 1) (by omega)
    have hfactor : (n - 1) / 2 ^ lsb (n - 1) = d := (congrArg (· / 2 ^ lsb (n - 1)) hsplit).trans hdiv
    exact ⟨_, d, hsplit, hd, hfactor ▸ h⟩
  · rintro ⟨s, d, hsplit, hd, h⟩
    have hlsb : lsb (n - 1) = s := hsplit ▸ lsb_two_pow_mul_odd hd
    have hfactor : (n - 1) / 2 ^ s = d := hsplit ▸ hdiv
    rwa [hlsb, hfactor]

/-- Where 1 has no square roots but 1 and -1, an element with `x^(2^s) = 1` is 1 or becomes -1 by fewer than `s` squarings. -/
theorem eq_one_or_squaring_eq_neg_one {R : Type*} [Ring R] [NoZeroDivisors R] {x : R} {s : Nat} (h : x ^ 2 ^ s = 1) :
    x = 1 ∨ ∃ r < s, x ^ 2 ^ r = -1 := by
  induction s with
  | zero => exact .inl (by simpa using h)
  | succ s ih =>
    rw [pow_succ, pow_mul, sq_eq_one_iff] at h
    rcases h with h | h
    · exact (ih h).imp_right fun ⟨r, hr, hneg⟩ => ⟨r, hr.trans s.lt_succ_self, hneg⟩
    · exact .inr ⟨s, s.lt_succ_self, h⟩

/-- Every witness of a prime passes (R249): `a^(n-1)` is 1 by Fermat, and modulo a prime 1 has two square roots. -/
theorem passes_of_prime {n a : Nat} (hprime : Nat.Prime n) (ha : 2 ≤ a ∧ a ≤ n - 2) : Passes n a := by
  have := Fact.mk hprime
  have hn : 2 ≤ n := hprime.two_le
  obtain ⟨d, hsplit, hd⟩ := lsb_spec (n := n - 1) (by omega)
  have ha0 : (a : ZMod n) ≠ 0 := by
    rw [Ne, ZMod.natCast_eq_zero_iff]
    exact Nat.not_dvd_of_pos_of_lt (by omega) (by omega)
  have hfermat : ((a : ZMod n) ^ d) ^ 2 ^ lsb (n - 1) = 1 := by
    rw [← pow_mul, Nat.mul_comm, ← hsplit]
    exact ZMod.pow_card_sub_one_eq_one ha0
  refine ⟨_, d, hsplit, hd, (eq_one_or_squaring_eq_neg_one hfermat).imp (fun hone => ?_) fun ⟨r, hr, hneg⟩ => ?_⟩
  · have hmod : a ^ d % n = 1 % n := (ZMod.natCast_eq_natCast_iff' _ _ _).1 (by push_cast; exact hone)
    rwa [Nat.mod_eq_of_lt hn] at hmod
  · have hmod : a ^ (2 ^ r * d) % n = (n - 1) % n := by
      rw [← ZMod.natCast_eq_natCast_iff', Nat.cast_sub hprime.one_le, ZMod.natCast_self, Nat.mul_comm, pow_mul]
      push_cast
      rw [hneg, zero_sub]
    exact ⟨r, hr.trans_le (Nat.le_max_left _ _), hmod.trans (Nat.mod_eq_of_lt (by omega))⟩

end Sys2Proof.Machine
end

section
/-! SUPPORT. What a command of the miller_rabin_primality_tester computes, case by case, and what its verdicts complete with
(46_miller_rabin_primality_tester.md R242 to R246). -/

namespace Sys2Proof.Machine
open Sys2Proof.Claims

theorem finish_verdict_prime (s : State) (rd : Reg) :
    finish (verdictResult rd .prime) s = .next (succeeded s (s.x.set rd.val 1) true false false 0) := rfl

theorem finish_verdict_composite (s : State) (rd : Reg) (round : Nat) :
    finish (verdictResult rd (.composite round)) s = .next (succeeded s (s.x.set rd.val 0) false false false round) := rfl

theorem finish_verdict_needWord (s : State) (rd : Reg) :
    finish (verdictResult rd .needWord) s = .next { s with rndReq := true } := rfl

section Top
variable {b : Bank} {rd rn : Reg} {r : CmdResult}

theorem mrTop_of_zero (h : b.read rn = 0) : mrTop b rd rn r = invalidInput .zeroOperand rn 0 := if_pos h

theorem mrTop_of_one (h : b.read rn = 1) : mrTop b rd rn r = verdictResult rd (.composite 0) := by
  rw [mrTop, if_neg (by omega), if_pos h]

theorem mrTop_of_two_or_three (h : b.read rn = 2 ∨ b.read rn = 3) : mrTop b rd rn r = verdictResult rd .prime := by
  rw [mrTop, if_neg (by omega), if_neg (by omega), if_pos h]

end Top

theorem rounds_admitted {rounds : Nat} (hk : 1 ≤ rounds ∧ rounds ≤ 1023) : ¬ (rounds = 0 ∨ Config.mrRoundsMax < rounds) := by
  simp only [Config.mrRoundsMax]
  omega

section WitnessRegisters
variable {s : State} {f : Flight} {rd rn rw : Reg} {rounds i : Nat}

/-- MRTEST with witness registers completes its computation on the snapshot (R155). -/
theorem exec_mrtestRegs (he : s.engine = .running f) (rd rn rw : Reg) (rounds : Nat) :
    exec (.mrtestRegs rd rn rw rounds) s = finish (mrtestRegsResult f.snap rd rn rw rounds) s := exec_running he _

variable {b : Bank}

theorem mrtestRegsResult_of_count_zero : mrtestRegsResult b rd rn rw 0 = invalidInput .count 0 0 := rfl

theorem mrtestRegsResult_of_overrun (hk : 1 ≤ rounds ∧ rounds ≤ 1023) (h : 16 < rw.val + rounds) :
    mrtestRegsResult b rd rn rw rounds = invalidInput .regRange rw 0 := by
  rw [mrtestRegsResult, if_neg (rounds_admitted hk), regArray_of_overrun hk.1 h]

variable (hfits : rw.val + rounds ≤ 16)
include hfits

/-- With an admitted count and the array inside the bank the operand is looked at next (R242). -/
theorem mrtestRegsResult_of_fits (hk : 1 ≤ rounds) : mrtestRegsResult b rd rn rw rounds =
    mrTop b rd rn (witnessRounds b rd rn ((List.range rounds).map (elemReg rw))) := by
  rw [mrtestRegsResult, if_neg (rounds_admitted ⟨hk, by omega⟩), regArray_of_fits hfits]

/-- Witnesses in range are the witnesses of the rounds (R246). -/
theorem witnessRounds_of_in_range (hrange : ∀ i < rounds, 2 ≤ elem b rw i ∧ elem b rw i ≤ b.read rn - 2) :
    witnessRounds b rd rn ((List.range rounds).map (elemReg rw)) =
      verdictResult rd (roundsWith (b.read rn) 0 ((List.range rounds).map (elem b rw))) := by
  have hgood : firstBad (witnessOutOfRange (b.read rn)) b 0 ((List.range rounds).map (elemReg rw)) = none := by
    simp only [firstBad_none, List.forall_mem_map, List.mem_range]
    intro i hi
    rw [read_elemReg b (by omega), witnessOutOfRange_false]
    exact hrange i hi
  rw [witnessRounds, hgood, map_read_elemReg b hfits]

/-- The first witness out of range is reported (R246, R275). -/
theorem witnessRounds_of_out_of_range (hi : i < rounds) (hout : elem b rw i < 2 ∨ b.read rn - 2 < elem b rw i)
    (hbefore : ∀ j < i, 2 ≤ elem b rw j ∧ elem b rw j ≤ b.read rn - 2) :
    witnessRounds b rd rn ((List.range rounds).map (elemReg rw)) = invalidInput .outOfRange (elemReg rw i) i := by
  rw [witnessRounds, firstBad_elemReg hi hfits (witnessOutOfRange_iff.2 hout) fun j hj =>
    witnessOutOfRange_false.2 (hbefore j hj)]

end WitnessRegisters

section Rounds
variable {n i : Nat} (hn : 2 ≤ n)
include hn

/-- Every witness passing gives the verdict prime (R243). -/
theorem roundsWith_of_passes {as : List Nat} (h : ∀ a ∈ as, Passes n a) : roundsWith n i as = .prime :=
  roundsWith_prime fun a ha => (witnessPasses_iff_passes hn).2 (h a ha)

/-- The first witness that does not pass decides (R243, R245). -/
theorem roundsWith_of_not_passes {a : Nat} {pre : List Nat} (post : List Nat) (hpre : ∀ c ∈ pre, Passes n c)
    (ha : ¬ Passes n a) : roundsWith n i (pre ++ a :: post) = .composite (i + pre.length) :=
  roundsWith_composite (fun c hc => (witnessPasses_iff_passes hn).2 (hpre c hc)) (mt (witnessPasses_iff_passes hn).1 ha)

variable {witness : Nat → Nat} {rounds : Nat}

theorem roundsWith_range_of_passes (h : ∀ j < rounds, Passes n (witness j)) :
    roundsWith n 0 ((List.range rounds).map witness) = .prime :=
  roundsWith_of_passes hn (List.forall_mem_map.2 fun j hj => h j (List.mem_range.1 hj))

theorem roundsWith_range_of_not_passes (hi : i < rounds) (hpass : ∀ j < i, Passes n (witness j))
    (hfail : ¬ Passes n (witness i)) : roundsWith n 0 ((List.range rounds).map witness) = .composite i := by
  obtain ⟨post, hrange⟩ := range_eq_append_cons hi
  have hpre : ∀ c ∈ (List.range i).map witness, Passes n c :=
    List.forall_mem_map.2 fun j hj => hpass j (List.mem_range.1 hj)
  rw [hrange, List.map_append, List.map_cons, roundsWith_of_not_passes hn _ hpre hfail, List.length_map,
    List.length_range, Nat.zero_add]

end Rounds

section RandomWords
variable {s : State} {f : Flight} {rd rn : Reg} {rounds : Nat}

/-- MRTEST with random words completes its computation on the snapshot and the words drawn (R155). -/
theorem exec_mrtestRandom (he : s.engine = .running f) (rd rn : Reg) (rounds : Nat) :
    exec (.mrtestRandom rd rn rounds) s = finish (mrtestRandomResult f.snap f.drawn rd rn rounds) s := exec_running he _

variable {b : Bank} {drawn : List Word}

theorem mrtestRandomResult_of_count_zero : mrtestRandomResult b drawn rd rn 0 = invalidInput .count 0 0 := rfl

/-- With an admitted count the operand is looked at next (R242). -/
theorem mrtestRandomResult_of_count (hk : 1 ≤ rounds ∧ rounds ≤ 1023) :
    mrtestRandomResult b drawn rd rn rounds =
      mrTop b rd rn (verdictResult rd (roundsRandom (b.read rn) rounds 0 drawn)) := by
  rw [mrtestRandomResult, if_neg (rounds_admitted hk)]

end RandomWords

end Sys2Proof.Machine
end

section
/-! SUPPORT. The witness draw on the words received (46_miller_rabin_primality_tester.md R247): one attempt, the rejected attempts, one
witness, and the rounds on a list of drawn witnesses. -/

namespace Sys2Proof.Machine
open Sys2Proof.Claims

/-- The words of an attempt, taken from the front of the words received. -/
theorem takeWords_append (block rest : List Word) : takeWords block.length (block ++ rest) = some (wordsValue block, rest) := by
  induction block with
  | nil => rfl
  | cons w block ih => simp [takeWords, ih, wordsValue]

/-- The bit length of `n ≥ 1` is its size. -/
theorem bitlen_eq_size {n : Nat} (hn : n ≠ 0) : bitlen n = Nat.size n := by
  obtain ⟨hlow, hhigh⟩ := bitlen_spec hn
  have hlt : bitlen n - 1 < Nat.size n := Nat.lt_size.2 hlow
  have hle : Nat.size n ≤ bitlen n := Nat.size_le.2 hhigh
  omega

section Draw
variable {n : Nat} (hn : 4 ≤ n)
include hn

theorem bitlen_witnessSpan : bitlen (witnessSpan n) = drawBits n := by
  unfold witnessSpan drawBits
  split
  · subst n
    rfl
  · exact bitlen_eq_size (by omega)

theorem wordsPerAttempt_eq : wordsPerAttempt n = (drawBits n + 31) / 32 := by
  rw [wordsPerAttempt, bitlen_witnessSpan hn]

/-- One attempt gives its witness or is rejected (R247). -/
theorem drawAttempts_of_attempt {block : List Word} {v : Nat} (h : Attempt n block v) (attempts : Nat) (rest : List Word) :
    drawAttempts n (attempts + 1) (block ++ rest) =
      if v ≤ n - 4 then some (2 + v, rest) else drawAttempts n attempts rest := by
  obtain ⟨hlength, rfl⟩ := h
  rw [drawAttempts, wordsPerAttempt_eq hn, ← hlength, takeWords_append, bitlen_witnessSpan hn]
  rfl

theorem length_of_attempt_pos {block : List Word} {v : Nat} (h : Attempt n block v) : 1 ≤ block.length := by
  rw [h.1, ← wordsPerAttempt_eq hn]
  exact wordsPerAttempt_pos n

/-- The draw passes over rejected attempts, and as many attempts as there are words left are still to come (R247). -/
theorem drawAttempts_of_rejected {before : List Word} (hb : Rejected n before) {attempts : Nat} {rest : List Word}
    (hattempts : (before ++ rest).length ≤ attempts) :
    ∃ left ≥ rest.length, drawAttempts n attempts (before ++ rest) = drawAttempts n left rest := by
  induction hb generalizing attempts with
  | nil => exact ⟨attempts, hattempts, rfl⟩
  | @cons block before v h hv hb ih =>
    have hpos := length_of_attempt_pos hn h
    simp only [List.length_append] at hattempts
    obtain ⟨attempts, rfl⟩ : ∃ m, attempts = m + 1 := ⟨attempts - 1, by omega⟩
    rw [List.append_assoc, drawAttempts_of_attempt hn h, if_neg (by omega)]
    exact ih (by rw [List.length_append]; omega)

/-- Rejected attempts and an attempt in range draw its witness (R247). -/
theorem drawWitness_of_attempt {before block : List Word} {v : Nat} (hb : Rejected n before) (h : Attempt n block v)
    (hv : v ≤ n - 4) (rest : List Word) : drawWitness n (before ++ (block ++ rest)) = some (2 + v, rest) := by
  obtain ⟨left, hleft, hdraw⟩ := drawAttempts_of_rejected hn hb (rest := block ++ rest) le_rfl
  have hpos := length_of_attempt_pos hn h
  rw [List.length_append] at hleft
  obtain ⟨left, rfl⟩ : ∃ m, left = m + 1 := ⟨left - 1, by omega⟩
  rw [drawWitness, hdraw, drawAttempts_of_attempt hn h, if_pos hv]

/-- Rejected attempts and part of an attempt draw no witness (R247, R248). -/
theorem drawWitness_of_part {before part : List Word} (hb : Rejected n before)
    (hpart : part.length < (drawBits n + 31) / 32) : drawWitness n (before ++ part) = none := by
  obtain ⟨left, -, hdraw⟩ := drawAttempts_of_rejected hn hb (rest := part) le_rfl
  rw [drawWitness, hdraw]
  cases left with
  | zero => rfl
  | succ left => rw [drawAttempts, takeWords_none (by rwa [wordsPerAttempt_eq hn])]

end Draw

/-- What rounds come to when rounds that came to the first verdict are followed by rounds that come to the second (R243). -/
def Verdict.andThen : Verdict → Verdict → Verdict
  | .prime, v => v
  | .composite round, _ => .composite round
  | .needWord, _ => .needWord

/-- Rounds on drawn witnesses are the rounds with these witnesses, followed by the rounds left on the words left (R243, R247). -/
theorem roundsRandom_of_draws {n : Nat} (hn : 4 ≤ n) {ws : List Word} {as : List Nat} (h : Draws n ws as) (left i : Nat)
    (rest : List Word) : roundsRandom n (as.length + left) i (ws ++ rest) =
      (roundsWith n i as).andThen (roundsRandom n left (i + as.length) rest) := by
  induction h generalizing i with
  | nil => simp [roundsWith, Verdict.andThen]
  | @cons before block ws v as hb h hv _ ih =>
    rw [List.length_cons, Nat.add_right_comm, roundsRandom, List.append_assoc, List.append_assoc,
      drawWitness_of_attempt hn hb h hv, roundsWith]
    dsimp only
    split
    · rw [ih, Nat.add_assoc, Nat.add_comm 1]
    · rfl

section Drawn
variable {n : Nat} (hn : 4 ≤ n) {ws : List Word}
include hn

/-- As many passing witnesses drawn as there are rounds (R243, R247). -/
theorem roundsRandom_of_passes {as : List Nat} (hdraws : Draws n ws as) (hpass : ∀ a ∈ as, Passes n a) :
    roundsRandom n as.length 0 ws = .prime := by
  have hrounds := roundsRandom_of_draws hn hdraws 0 0 []
  rwa [List.append_nil, Nat.add_zero, roundsWith_of_passes (by omega) hpass] at hrounds

/-- The last witness drawn is the first that does not pass (R243, R245, R247). -/
theorem roundsRandom_of_not_passes {pre : List Nat} {a rounds : Nat} (hdraws : Draws n ws (pre ++ [a]))
    (hlt : pre.length < rounds) (hpass : ∀ c ∈ pre, Passes n c) (hfail : ¬ Passes n a) :
    roundsRandom n rounds 0 ws = .composite pre.length := by
  obtain ⟨left, rfl⟩ : ∃ left, rounds = (pre ++ [a]).length + left := Nat.exists_eq_add_of_le (by simpa using hlt)
  have hrounds := roundsRandom_of_draws hn hdraws left 0 []
  rwa [List.append_nil, roundsWith_of_not_passes (by omega) [] hpass hfail, Nat.zero_add] at hrounds

/-- Fewer witnesses drawn than there are rounds, all passing, and no further one in the words left (R247, R248). -/
theorem roundsRandom_of_open {tail part : List Word} {as : List Nat} {rounds : Nat} (hdraws : Draws n ws as)
    (hlt : as.length < rounds) (hpass : ∀ a ∈ as, Passes n a) (hrejected : Rejected n tail)
    (hpart : part.length < (drawBits n + 31) / 32) : roundsRandom n rounds 0 (ws ++ (tail ++ part)) = .needWord := by
  obtain ⟨left, rfl⟩ := Nat.exists_eq_add_of_lt hlt
  rw [Nat.add_assoc, roundsRandom_of_draws hn hdraws, roundsWith_of_passes (by omega) hpass, Verdict.andThen,
    roundsRandom, drawWitness_of_part hn hrejected hpart]

end Drawn

/-- For a prime, whatever words come, the rounds pass or wait (R249). -/
theorem roundsRandom_of_prime {n : Nat} (hprime : Nat.Prime n) (hn : 4 ≤ n) (left i : Nat) (ws : List Word) :
    roundsRandom n left i ws = .prime ∨ roundsRandom n left i ws = .needWord := by
  induction left generalizing i ws with
  | zero => exact .inl rfl
  | succ left ih =>
    rw [roundsRandom]
    split
    · exact .inr rfl
    · rename_i a rest hdraw
      rw [if_pos ((witnessPasses_iff_passes hprime.two_le).2 (passes_of_prime hprime (drawAttempts_range hn hdraw)))]
      exact ih (i + 1) rest

end Sys2Proof.Machine
end

section
/-! PROOF. The Miller-Rabin primality tester (46_miller_rabin_primality_tester.md). -/

namespace Sys2Proof.Proofs
open Sys2Proof.Machine Sys2Proof.Claims

/-- Settles O24: the operand decides for `n ≤ 3`; for `n ≥ 4` the witnesses in range are those of the rounds, cut at the first that
does not pass. -/
theorem mrtestWithWitnessesCompletes : Obligations.MrtestWithWitnessesCompletes := by
  intro s f rd rn rw rounds he hk hfits
  rw [exec_mrtestRegs he, mrtestRegsResult_of_fits (by omega) hk]
  refine ⟨fun hone => ?_, fun hsmall => ?_, fun (hlarge : 4 ≤ f.snap.read rn) hrange => ?_⟩
  · rw [mrTop_of_one hone]
    exact finish_verdict_composite s rd 0
  · rw [mrTop_of_two_or_three hsmall, finish_verdict_prime]
  · have hn : 2 ≤ f.snap.read rn := by omega
    rw [mrTop_large hlarge, witnessRounds_of_in_range (by omega) hrange]
    refine ⟨fun hpass => ?_, fun i hi hpass hfail => ?_⟩
    · rw [roundsWith_range_of_passes hn hpass, finish_verdict_prime]
    · rw [roundsWith_range_of_not_passes hn hi hpass hfail, finish_verdict_composite]

/-- Settles O25: the checks in their order, each the first that fails; the ILLEGAL form is a case of O13. -/
theorem mrtestRejectsInOrder : Obligations.MrtestRejectsInOrder := by
  refine ⟨fun s f rd rn rw rounds he => ?_, nonzeroReservedFieldsCompleteIllegal.2.2.2.1⟩
  rw [exec_mrtestRegs he, exec_mrtestRegs he, exec_mrtestRandom he, exec_mrtestRandom he]
  refine ⟨?_, ?_, fun hk hk1023 => ⟨fun hrw => ?_, fun hzero => ?_, fun hfits => ?_⟩⟩
  · rw [mrtestRegsResult_of_count_zero, finish_invalidInput]
    rfl
  · rw [mrtestRandomResult_of_count_zero, finish_invalidInput]
    rfl
  · rw [mrtestRegsResult_of_overrun ⟨hk, hk1023⟩ (by omega), finish_invalidInput]
  · rw [mrtestRandomResult_of_count ⟨hk, hk1023⟩, mrTop_of_zero hzero, finish_invalidInput]
  · rw [mrtestRegsResult_of_fits (by omega) hk]
    refine ⟨fun hzero => ?_, fun hlarge i hi hout hbefore => ?_⟩
    · rw [mrTop_of_zero hzero, finish_invalidInput]
    · rw [mrTop_large hlarge, witnessRounds_of_out_of_range (by omega) hi hout hbefore, finish_invalidInput,
        elemReg_val (by omega)]

/-- Settles O26: the operand decides for `n ≤ 3`; for `n ≥ 4` the rounds on the words drawn are those with the witnesses drawn. -/
theorem mrtestWithRandomWordsCompletes : Obligations.MrtestWithRandomWordsCompletes := by
  intro s f rd rn rounds he hk hk1023
  rw [exec_mrtestRandom he, mrtestRandomResult_of_count ⟨hk, hk1023⟩]
  refine ⟨fun hone => ?_, fun hsmall => ?_, fun as (hlarge : 4 ≤ f.snap.read rn) hdraws => ?_⟩
  · rw [mrTop_of_one hone]
    exact finish_verdict_composite s rd 0
  · rw [mrTop_of_two_or_three hsmall, finish_verdict_prime]
  · rw [mrTop_large hlarge]
    refine ⟨fun hlength hpass => ?_, fun pre a has hlt hpass hfail => ?_⟩
    · rw [← hlength, roundsRandom_of_passes hlarge hdraws hpass, finish_verdict_prime]
    · rw [roundsRandom_of_not_passes hlarge (has ▸ hdraws) hlt hpass hfail, finish_verdict_composite]

/-- Settles O27: the witnesses drawn all pass, and the next round's draw runs out of words. -/
theorem mrtestWaitsForTheNextWord : Obligations.MrtestWaitsForTheNextWord := by
  intro s f rd rn rounds used tail part as he hk1023 (hlarge : 4 ≤ f.snap.read rn) hdrawn hdraws hlt hpass hrejected hpart
  rw [exec_mrtestRandom he, mrtestRandomResult_of_count ⟨by omega, hk1023⟩, mrTop_large hlarge, hdrawn,
    roundsRandom_of_open hlarge hdraws hlt hpass hrejected hpart, finish_verdict_needWord]

/-- Settles O28: a prime is 2 or 3, or its witnesses, which lie in `[2, n - 2]`, all pass. -/
theorem primesAreNeverReportedComposite : Obligations.PrimesAreNeverReportedComposite := by
  intro s f rd rn rw rounds he hk hk1023 (hprime : Nat.Prime (f.snap.read rn))
  have hregs := mrtestWithWitnessesCompletes s f rd rn rw rounds he hk
  have hrandom := mrtestWithRandomWordsCompletes s f rd rn rounds he hk hk1023
  have htwo : 2 ≤ f.snap.read rn := hprime.two_le
  obtain hsmall | hlarge : (f.snap.read rn = 2 ∨ f.snap.read rn = 3) ∨ 4 ≤ f.snap.read rn := by omega
  · exact ⟨fun hfits _ => (hregs hfits).2.1 hsmall, .inl (hrandom.2.1 hsmall)⟩
  · refine ⟨fun hfits hrange => ?_, ?_⟩
    · have hpass : ∀ i < rounds, Passes (f.snap.read rn) (elem f.snap rw i) := fun i hi =>
        passes_of_prime hprime (hrange hlarge i hi)
      exact ((hregs hfits).2.2 hlarge (hrange hlarge)).1 hpass
    · rw [exec_mrtestRandom he, mrtestRandomResult_of_count ⟨hk, hk1023⟩, mrTop_large hlarge]
      obtain hverdict | hverdict := roundsRandom_of_prime hprime hlarge rounds 0 f.drawn
      · exact .inl (by rw [hverdict, finish_verdict_prime])
      · exact .inr (by rw [hverdict, finish_verdict_needWord])

end Sys2Proof.Proofs
end

section
/-! SUPPORT. The bit scans in plain arithmetic, and the one result each answers (47_bit_scan.md R261, R263). -/

namespace Sys2Proof.Machine
open Sys2Proof.Claims

/-- The `k` with `2^(k-1) ≤ n < 2^k` is the bit length (R261). -/
theorem bitlen_eq_of_range {n k : Nat} (hlow : 2 ^ (k - 1) ≤ n) (hhigh : n < 2 ^ k) : bitlen n = k := by
  have hn : n ≠ 0 := Nat.ne_of_gt ((Nat.two_pow_pos (k - 1)).trans_le hlow)
  have hlt : k - 1 < Nat.size n := Nat.lt_size.2 hlow
  have hle : Nat.size n ≤ k := Nat.size_le.2 hhigh
  rw [bitlen_eq_size hn]
  omega

section InFlight
variable {s : State} {f : Flight} (he : s.engine = .running f) (rd rn : Reg)
include he

/-- BITLEN writes the bit length of its operand, whatever the operand (R261). -/
theorem exec_bitlen : exec (.bitlen rd rn) s = .next (wrote s rd (bitlen (f.snap.get rn))) := by
  rw [exec_running he]
  exact finish_oneResult s rd (bitlen (f.snap.get rn))

/-- LSB checks its operand for 0, and otherwise writes its lowest set bit (R263). -/
theorem exec_lsb : exec (.lsb rd rn) s =
    .next (if f.snap.get rn = 0 then failed s .invalidInput .zeroOperand rn 0 else wrote s rd (lsb (f.snap.get rn))) := by
  rw [exec_running he]
  exact finish_checked_oneResult (f.snap.get rn = 0) s .zeroOperand rn 0 rd (lsb (f.snap.get rn))

end InFlight

end Sys2Proof.Machine
end

section
/-! PROOF. The bit-scan helpers (47_bit_scan.md). -/

namespace Sys2Proof.Proofs
open Sys2Proof.Machine Sys2Proof.Claims

/-- Settles O29: the bit length is the one result, 1 at 0 and else the `k` of the range; the ILLEGAL form is a case of O13. -/
theorem bitlenCompletes : Obligations.BitlenCompletes := by
  obtain ⟨-, -, -, -, hscan⟩ := nonzeroReservedFieldsCompleteIllegal
  refine ⟨fun s f rd rn he => ?_, hscan 0x09 (by simp)⟩
  rw [exec_bitlen he]
  refine ⟨fun hzero => ?_, fun k _ hlow hhigh => ?_, ⟨bitlen (f.snap.get rn), rfl⟩⟩
  · rw [hzero, bitlen_zero]
  · rw [bitlen_eq_of_range hlow hhigh]

/-- Settles O30: the operand is checked for 0, and otherwise any split into a power of two and an odd factor gives the result; the
ILLEGAL form is a case of O13. -/
theorem lsbCompletes : Obligations.LsbCompletes := by
  obtain ⟨-, -, -, -, hscan⟩ := nonzeroReservedFieldsCompleteIllegal
  refine ⟨fun s f rd rn he => ?_, hscan 0x0A (by simp)⟩
  rw [exec_lsb he]
  refine ⟨fun hzero => ?_, fun k d hsplit hodd => ?_⟩
  · rw [if_pos hzero]
  · have hd : d ≠ 0 := by omega
    have hne : 2 ^ k * d ≠ 0 := mul_ne_zero (by simp) hd
    rw [hsplit, if_neg hne, lsb_two_pow_mul_odd hodd]

end Sys2Proof.Proofs
end

section
/-! SUPPORT. The sticky flags and the interrupt output under each event of a step (10_state.md R37, 60_exceptions.md R274, R280, R281). -/

namespace Sys2Proof.Machine
open Sys2Proof.Claims

/-- `step_cases` with the engine's two ways to move taken together (R93, R154, log 2). -/
theorem step_cases_engineMoves {s t : State} (h : step s = .next t) :
    (EngineMoves s ∧ State.engineStep { s with inputs := s.inputs.tail } = .next t) ∨
    (∃ a rest, Next s (.access a) rest ∧ t = State.hostAccess { s with inputs := rest } a) ∨
    (∃ w rest, Next s (.randomWord w) rest ∧ t = State.offerWord { s with inputs := rest } w) ∨
    (∃ rest, Next s .reset rest ∧ t = { State.resetAt s.width with inputs := rest }) := by
  rcases step_cases h with ⟨s', hs', -⟩ | hother
  · have hmoves : EngineMoves s := hs'.imp And.left fun ⟨rest, hi, _⟩ => ⟨rest, hi⟩
    exact .inl ⟨hmoves, step_of_engineMoves hmoves ▸ h⟩
  · exact .inr hother

/-- A sticky flag that is 1 stays 1 (R274). -/
def Status.KeepsSticky (old new : Status) : Prop :=
  (old.overrun = true → new.overrun = true) ∧ (old.busyacc = true → new.busyacc = true)

theorem keepsSticky_refl (st : Status) : st.KeepsSticky st := ⟨id, id⟩

/-- A STATUS write that clears OVERRUN has bit 6 set, and one that clears BUSYACC bit 7 (R37). -/
theorem clearWritten_clears {st : Status} {v : Word} :
    (st.overrun = true → (st.clearWritten v).overrun = false → v.getLsbD 6 = true) ∧
    (st.busyacc = true → (st.clearWritten v).busyacc = false → v.getLsbD 7 = true) := by
  constructor <;> intro hset hclear <;> simpa [Status.clearWritten, hset] using hclear

/-- A CMD write keeps the sticky flags, whether it is accepted or dropped (R152, R153). -/
theorem writeCmd_keepsSticky (s : State) (w : Word) : s.status.KeepsSticky (s.writeCmd w).status := by
  by_cases hb : s.busy = true
  · rw [writeCmd_busy hb]
    exact ⟨fun _ => rfl, id⟩
  · rw [writeCmd_not_busy hb]
    exact keepsSticky_refl s.status

/-- A host access keeps the sticky flags, or is a STATUS write (R37, R87, R153). -/
theorem hostAccess_keepsSticky_or_clears (s : State) (a : Access) : s.status.KeepsSticky (s.hostAccess a).status ∨
    ∃ v, a = .write 0x00C#16 .word v ∧ (s.hostAccess a).status = s.status.clearWritten v := by
  obtain ⟨resp, h | ⟨-, h⟩ | ⟨v, -, h⟩ | ⟨v, ha, h⟩ | ⟨v, -, h⟩ | ⟨ad, r, j, v, -, -, -, h⟩⟩ := hostAccess_cases s a <;> rw [h]
  case inr.inl => exact .inl ⟨id, fun _ => rfl⟩
  case inr.inr.inr.inl => exact .inr ⟨v, ha, rfl⟩
  case inr.inr.inr.inr.inl => exact .inl (writeCmd_keepsSticky s v)
  all_goals exact .inl (keepsSticky_refl s.status)

/-- The engine's move keeps the sticky flags (R157, R165). -/
theorem engineStep_keepsSticky {s t : State} (h : s.engineStep = .next t) : s.status.KeepsSticky t.status := by
  cases he : s.engine with
  | idle =>
    obtain rfl := Host.Outcome.next.inj ((engineStep_idle he).symm.trans h)
    exact keepsSticky_refl s.status
  | running f =>
    rcases engineStep_running_cases he h with ⟨i, st, -, -, rfl⟩ | ⟨e, -, -, rfl⟩ | ⟨-, rfl⟩ <;> exact ⟨id, id⟩

/-- An offered word changes neither STATUS nor IE (R100). -/
theorem offerWord_status_ie (s : State) (w : Word) : (s.offerWord w).status = s.status ∧ (s.offerWord w).ie = s.ie := by
  rcases offerWord_cases s w with h | ⟨f, -, -, h⟩ <;> rw [h] <;> exact ⟨rfl, rfl⟩

/-- A step keeps the sticky flags, or is reset or a STATUS write (R37, R274). -/
theorem step_keepsSticky_or_clears {s t : State} (h : step s = .next t) : s.status.KeepsSticky t.status ∨
    (∃ rest, Next s .reset rest) ∨
    ∃ rest v, Next s (.access (.write 0x00C#16 .word v)) rest ∧ t.status = s.status.clearWritten v := by
  rcases step_cases_engineMoves h with ⟨-, hengine⟩ | ⟨a, rest, hi, rfl⟩ | ⟨w, rest, -, rfl⟩ | ⟨rest, hi, -⟩
  · have hkeeps := engineStep_keepsSticky hengine
    exact .inl hkeeps
  · obtain hkeeps | ⟨v, rfl, hclears⟩ := hostAccess_keepsSticky_or_clears { s with inputs := rest } a
    · exact .inl hkeeps
    · exact .inr (.inr ⟨rest, v, hi, hclears⟩)
  · rw [(offerWord_status_ie _ w).1]
    exact .inl (keepsSticky_refl s.status)
  · exact .inr (.inl ⟨rest, hi⟩)

theorem irq_eq_true_iff (s : State) : s.irq = true ↔ s.ie = true ∧ s.status.done = true := Bool.and_eq_true_iff

/-- A CMD write raises no interrupt: an accepted one clears DONE (R152, R153). -/
theorem irq_of_irq_writeCmd {s : State} {w : Word} (h : (s.writeCmd w).irq = true) : s.irq = true := by
  by_cases hb : s.busy = true
  · rwa [writeCmd_busy hb] at h
  · rw [writeCmd_not_busy hb, irq_eq_true_iff] at h
    simp at h

/-- An access that raises `irq` is a CTRL write that sets IE while DONE is 1 (R281). -/
theorem hostAccess_raises_irq {s : State} {a : Access} (hhigh : (s.hostAccess a).irq = true) (hlow : s.irq = false) :
    ∃ v, a = .write 0x008#16 .word v ∧ v.getLsbD 0 = true ∧ s.status.done = true := by
  have hkept (hs : s.irq = true) : False := Bool.false_ne_true (hlow.symm.trans hs)
  obtain ⟨resp, h | ⟨-, h⟩ | ⟨v, ha, h⟩ | ⟨v, -, h⟩ | ⟨v, -, h⟩ | ⟨ad, r, j, v, -, -, -, h⟩⟩ := hostAccess_cases s a <;>
    rw [h] at hhigh
  case inr.inr.inl => exact ⟨v, ha, (irq_eq_true_iff _).1 hhigh⟩
  case inr.inr.inr.inl =>
    obtain ⟨hie, hdone⟩ := (irq_eq_true_iff _).1 hhigh
    exact (hkept ((irq_eq_true_iff s).2 ⟨hie, (Bool.and_eq_true_iff.1 hdone).1⟩)).elim
  case inr.inr.inr.inr.inl => exact (hkept (irq_of_irq_writeCmd hhigh)).elim
  all_goals exact (hkept hhigh).elim

/-- A move of the engine that raises `irq` completes the command in flight (R281). -/
theorem engineStep_raises_irq {s t : State} (hstep : s.engineStep = .next t) (hhigh : t.irq = true) (hlow : s.irq = false) :
    s.busy = true ∧ t.busy = false := by
  cases he : s.engine with
  | idle =>
    obtain rfl := Host.Outcome.next.inj ((engineStep_idle he).symm.trans hstep)
    cases hlow.symm.trans hhigh
  | running f =>
    rcases engineStep_completes_or_waits he hstep with ⟨hidle, -⟩ | ⟨-, rfl⟩
    · exact ⟨busy_of_running he, busy_of_idle hidle⟩
    · cases hlow.symm.trans hhigh

end Sys2Proof.Machine
end

section
/-! PROOF. The exceptions, the interrupt output and reset as one step (60_exceptions.md, 70_reset_and_hazards.md). -/

namespace Sys2Proof.Proofs
open Sys2Proof.Machine Sys2Proof.Claims

/-- Settles O48: a step that does not keep the sticky flags is reset or a STATUS write, which clears the bits it writes as 1. -/
theorem stickyFlagsStayUntilCleared : Obligations.StickyFlagsStayUntilCleared := by
  intro s t hstep
  obtain ⟨hoverrun, hbusyacc⟩ | hreset | ⟨rest, v, hi, hclears⟩ := step_keepsSticky_or_clears hstep
  · exact ⟨fun hset hclear => absurd (hoverrun hset) (Bool.eq_false_iff.1 hclear),
      fun hset hclear => absurd (hbusyacc hset) (Bool.eq_false_iff.1 hclear)⟩
  · exact ⟨fun _ _ => .inl hreset, fun _ _ => .inl hreset⟩
  · rw [hclears]
    exact ⟨fun hset hclear => .inr ⟨rest, v, hi, clearWritten_clears.1 hset hclear⟩,
      fun hset hclear => .inr ⟨rest, v, hi, clearWritten_clears.2 hset hclear⟩⟩

/-- Settles O49, by the event of the step: an offered word leaves `irq`, and reset lowers it. -/
theorem onlyCompletionOrEnableRaisesIrq : Obligations.OnlyCompletionOrEnableRaisesIrq := by
  refine fun s t hstep => ⟨rfl, fun hlow hhigh => ?_⟩
  rcases step_cases_engineMoves hstep with ⟨hmoves, hengine⟩ | ⟨a, rest, hi, rfl⟩ | ⟨w, rest, -, rfl⟩ | ⟨rest, -, rfl⟩
  · have hcompletes := engineStep_raises_irq hengine hhigh hlow
    exact .inl ⟨hmoves, hcompletes⟩
  · obtain ⟨v, rfl, hset⟩ := hostAccess_raises_irq hhigh hlow
    exact .inr ⟨rest, v, hi, hset⟩
  · obtain ⟨hstatus, hie⟩ := offerWord_status_ie { s with inputs := rest } w
    rw [State.irq, hstatus, hie] at hhigh
    cases hlow.symm.trans hhigh
  · cases hhigh

/-- Settles O2: the step of a listed reset applies it. -/
theorem resetInputIsOneStepToReset : Obligations.ResetInputIsOneStepToReset :=
  fun _ _ hi => step_event hi

end Sys2Proof.Proofs
end
